-- ==== Sys2Proof/Word.lean ====
section
/-!
DEFINITION. The word types of the LehmerRandom core: the widths of 00_scope.md R5 and R6, and nothing else.
-/

namespace Sys2Proof

/-- A 32-bit word: `STATE`, a seed, a raw value, an integer bound (00_scope.md R5 `STATE_W`, `INT_W`). -/
abbrev Word := BitVec 32

/-- A 64-bit word: a product inside `T` (`WIDE_W`), a binary64 pattern, the `data` of a response. -/
abbrev Wide := BitVec 64

/-- A command word (00_scope.md R5 `CMD_W` = 168, 30_encoding.md R35). -/
abbrev Cmd := BitVec 168

/-- A response word (00_scope.md R5 `RSP_W` = 66, 30_encoding.md R43). -/
abbrev Rsp := BitVec 66

end Sys2Proof
end

