-- ==== Sys2Proof/Syntax.lean ====
section
/-!
DEFINITION. The fifteen commands of 30_encoding.md R41, one constructor per row of the opcode table, with exactly the
operands R40 says the command uses. An operand has the type of its field: a seed and an integer bound 32 bits (R37,
R39), a binary64 bound its 64-bit pattern (R38). Every value of every field is legal (R37 to R39), so every term of this
type is a well-formed instruction.
-/

namespace Sys2Proof

/-- A command of the block. -/
inductive Instr where
  /-- `SEED seed` (42 R91): load `STATE`. LR: construction with an explicit seed. -/
  | seed (seed : Word)
  /-- `MIX seed` (40 R62): the raw transform of a supplied seed. LR: `transform(seed)`. -/
  | mix (seed : Word)
  /-- `NEXT` (42 R92). LR: `next()`. -/
  | next
  /-- `NEXTM max` (42 R93), `max` a signed 32-bit number. LR: `next(max)`. -/
  | nextm (max : Word)
  /-- `NEXTR min, max` (42 R94), both signed 32-bit numbers. LR: `next(min, max)`. -/
  | nextr (min max : Word)
  /-- `NEXTB` (42 R95). LR: one element of `nextBytes(buffer)`. -/
  | nextb
  /-- `NEXTD` (42 R96). LR: `nextDouble()`. -/
  | nextd
  /-- `NEXTDM max` (42 R97), `max` a binary64 pattern. LR: `nextDouble(max)`. -/
  | nextdm (max : Wide)
  /-- `NEXTDR min, max` (42 R98), both binary64 patterns. LR: `nextDouble(min, max)`. -/
  | nextdr (min max : Wide)
  /-- `SNEXT seed` (43 R107). LR: the stateless `next(seed)`. -/
  | snext (seed : Word)
  /-- `SNEXTM seed, max` (43 R108). LR: the stateless `next(seed, max)`. -/
  | snextm (seed max : Word)
  /-- `SNEXTR seed, min, max` (43 R109). LR: the stateless `next(seed, min, max)`. -/
  | snextr (seed min max : Word)
  /-- `SNEXTD seed` (43 R110). LR: the stateless `nextDouble(seed)`. -/
  | snextd (seed : Word)
  /-- `SNEXTDM seed, max` (43 R111). LR: the stateless `nextDouble(seed, max)`. -/
  | snextdm (seed : Word) (max : Wide)
  /-- `SNEXTDR seed, min, max` (43 R112). LR: the stateless `nextDouble(seed, min, max)`. -/
  | snextdr (seed : Word) (min max : Wide)
deriving DecidableEq, Repr

end Sys2Proof
end

