-- ==== Sys2Proof/WellFormed.lean ====
section
/-!
DEFINITION. Checks on words. A term of `Instr` needs no check of its own: its fields have the widths of the encoding and
every value of every field is legal (30_encoding.md R37 to R39). What can be ill formed is a word: an opcode outside the
fifteen, a command word with a bit set that its command ignores (legal, but not what the assembler writes), a response
word the block never produces, a pattern that is no NaN.
-/

namespace Sys2Proof

/-- The fifteen legal values of `op` (30_encoding.md R41). -/
def legalOps : List (BitVec 8) :=
  [0x01#8, 0x02#8,
   0x10#8, 0x11#8, 0x12#8, 0x13#8, 0x18#8, 0x19#8, 0x1A#8,
   0x30#8, 0x31#8, 0x32#8, 0x38#8, 0x39#8, 0x3A#8]

/-- `op` is one of the fifteen (R41); every other value is illegal (R42). -/
def opLegal (op : BitVec 8) : Bool := legalOps.contains op

/-- The bits of the command word that a command uses: its opcode and the fields of R40's table. -/
def Instr.usedBits : Instr → Cmd
  | .seed _ | .mix _ | .snext _ | .snextd _ => 0xFF_FFFFFFFF_0000000000000000_0000000000000000#168
  | .next | .nextb | .nextd                 => 0xFF_00000000_0000000000000000_0000000000000000#168
  | .nextm _                                => 0xFF_00000000_0000000000000000_00000000FFFFFFFF#168
  | .nextr _ _                              => 0xFF_00000000_00000000FFFFFFFF_00000000FFFFFFFF#168
  | .nextdm _                               => 0xFF_00000000_0000000000000000_FFFFFFFFFFFFFFFF#168
  | .nextdr _ _                             => 0xFF_00000000_FFFFFFFFFFFFFFFF_FFFFFFFFFFFFFFFF#168
  | .snextm _ _                             => 0xFF_FFFFFFFF_0000000000000000_00000000FFFFFFFF#168
  | .snextr _ _ _                           => 0xFF_FFFFFFFF_00000000FFFFFFFF_00000000FFFFFFFF#168
  | .snextdm _ _                            => 0xFF_FFFFFFFF_0000000000000000_FFFFFFFFFFFFFFFF#168
  | .snextdr _ _ _                          => 0xFF_FFFFFFFF_FFFFFFFFFFFFFFFF_FFFFFFFFFFFFFFFF#168

/-- The word `w` is written as the assembler writes the command `i`: zero in every ignored bit (R40, R46). -/
def Instr.wordCanonical (i : Instr) (w : Cmd) : Bool := w &&& ~~~i.usedBits == 0#168

/-- A response word the block may produce (R43): `err` is not 3, and `data` is zero beside a non-zero `err`. -/
def rspLegal (r : Rsp) : Bool :=
  r.extractLsb' 64 2 != 3#2 && (r.extractLsb' 64 2 == 0#2 || r.extractLsb' 0 64 == 0#64)

/-- A NaN pattern (41_range_conversion.md R81): `data[62:52] = 0x7FF` and `data[51:0]` is not zero. -/
def nanPatternOk (d : Wide) : Bool :=
  d.extractLsb' 52 11 == 0x7FF#11 && d.extractLsb' 0 52 != 0#52

end Sys2Proof
end

