-- ==== Sys2Proof/Decode.lean ====
section
/-!
DEFINITION. The command word: its fields (30_encoding.md R35, R37 to R40), the decoder (R41, R42: the fifteen-row table
and a default arm) and the encoder (the assembler's words, R46: zero in every ignored bit).
-/

namespace Sys2Proof

/-- `cmd[167:160]`, the opcode (R35). -/
def opOf (w : Cmd) : BitVec 8 := w.extractLsb' 160 8

/-- `cmd[159:128]`, the seed operand (R35, R39). -/
def seedOf (w : Cmd) : Word := w.extractLsb' 128 32

/-- `cmd[127:64]`, the field `a`: a binary64 `min` (R35, R38). -/
def aOf (w : Cmd) : Wide := w.extractLsb' 64 64

/-- `cmd[63:0]`, the field `b`: a binary64 `max` (R35, R38). -/
def bOf (w : Cmd) : Wide := w.extractLsb' 0 64

/-- `cmd.a[31:0]`, an integer `min` (R37): the upper half of `a` is ignored. -/
def aIntOf (w : Cmd) : Word := (aOf w).extractLsb' 0 32

/-- `cmd.b[31:0]`, an integer `max` (R37): the upper half of `b` is ignored. -/
def bIntOf (w : Cmd) : Word := (bOf w).extractLsb' 0 32

/-- The decoder: all eight bits of `op` are significant (R41); `none` is an illegal command (R42), whatever its other
fields hold. Ignored bits are ignored (R40). -/
def decode (w : Cmd) : Option Instr :=
  match (opOf w).toNat with
  | 0x01 => some (.seed (seedOf w))
  | 0x02 => some (.mix (seedOf w))
  | 0x10 => some .next
  | 0x11 => some (.nextm (bIntOf w))
  | 0x12 => some (.nextr (aIntOf w) (bIntOf w))
  | 0x13 => some .nextb
  | 0x18 => some .nextd
  | 0x19 => some (.nextdm (bOf w))
  | 0x1A => some (.nextdr (aOf w) (bOf w))
  | 0x30 => some (.snext (seedOf w))
  | 0x31 => some (.snextm (seedOf w) (bIntOf w))
  | 0x32 => some (.snextr (seedOf w) (aIntOf w) (bIntOf w))
  | 0x38 => some (.snextd (seedOf w))
  | 0x39 => some (.snextdm (seedOf w) (bOf w))
  | 0x3A => some (.snextdr (seedOf w) (aOf w) (bOf w))
  | _    => none

/-- What the host asks the decoder: the instruction whose bits are `w`, numbered as the opcode table numbers them (one
168-bit word, bit 0 of `b` least significant). The bits above `nbits` are zero; a number that does not fit a command
word is no command (R23: a command is one indivisible 168-bit word). -/
def decodeTableWord (nbits w : Nat) : Option Instr :=
  if w % 2 ^ nbits < 2 ^ 168 then decode (BitVec.ofNat 168 (w % 2 ^ nbits)) else none

/-- The command word with the given fields, most significant first: `op seed a b` (R35). -/
def packCmd (op : BitVec 8) (seed : Word) (a b : Wide) : Cmd := op ++ seed ++ a ++ b

/-- An integer bound in its 64-bit field: the low half, zero above (R37, R46). -/
def intField (v : Word) : Wide := v.setWidth 64

/-- The opcode of a command (R41). -/
def opcode : Instr → BitVec 8
  | .seed _        => 0x01#8
  | .mix _         => 0x02#8
  | .next          => 0x10#8
  | .nextm _       => 0x11#8
  | .nextr _ _     => 0x12#8
  | .nextb         => 0x13#8
  | .nextd         => 0x18#8
  | .nextdm _      => 0x19#8
  | .nextdr _ _    => 0x1A#8
  | .snext _       => 0x30#8
  | .snextm _ _    => 0x31#8
  | .snextr _ _ _  => 0x32#8
  | .snextd _      => 0x38#8
  | .snextdm _ _   => 0x39#8
  | .snextdr _ _ _ => 0x3A#8

/-- The word of a command as the assembler writes it (R46): each operand in its field (R35, R37 to R39), zero in every
bit the command ignores (R40). -/
def encode : Instr → Cmd
  | .seed s        => packCmd 0x01#8 s 0#64 0#64
  | .mix s         => packCmd 0x02#8 s 0#64 0#64
  | .next          => packCmd 0x10#8 0#32 0#64 0#64
  | .nextm hi      => packCmd 0x11#8 0#32 0#64 (intField hi)
  | .nextr lo hi   => packCmd 0x12#8 0#32 (intField lo) (intField hi)
  | .nextb         => packCmd 0x13#8 0#32 0#64 0#64
  | .nextd         => packCmd 0x18#8 0#32 0#64 0#64
  | .nextdm hi     => packCmd 0x19#8 0#32 0#64 hi
  | .nextdr lo hi  => packCmd 0x1A#8 0#32 lo hi
  | .snext s       => packCmd 0x30#8 s 0#64 0#64
  | .snextm s hi   => packCmd 0x31#8 s 0#64 (intField hi)
  | .snextr s lo hi => packCmd 0x32#8 s (intField lo) (intField hi)
  | .snextd s      => packCmd 0x38#8 s 0#64 0#64
  | .snextdm s hi  => packCmd 0x39#8 s 0#64 hi
  | .snextdr s lo hi => packCmd 0x3A#8 s lo hi

end Sys2Proof
end

