-- ==== Sys2Proof/Machine/Binary64.lean ====
section
/-!
DEFINITION. IEEE 754 binary64 as far as the converter uses it (41_range_conversion.md R76 to R80). Every finite datum is
a whole multiple of 2^-1074, the smallest subnormal, so a finite datum is held exactly as a sign and that multiple; each
operation computes the exact result as a fraction of such units and rounds it once (R79, R80). Log entry 7.
-/

namespace Sys2Proof.Machine

/-- A binary64 datum (R76). All NaN patterns are one datum: which pattern a NaN result has is open (R81). -/
inductive Datum where
  /-- A NaN. -/
  | nan
  /-- An infinity; `neg` is its sign. -/
  | inf (neg : Bool)
  /-- The finite number `(-1)^neg * mag * 2^-1074`; `mag = 0` is the zero of that sign. -/
  | fin (neg : Bool) (mag : Nat)
deriving DecidableEq, Repr

/-- The value 1.0 in units of 2^-1074. (Irreducible, like `magLimit`, `unpack`, `roundMag` and `packMag`, so that the
elaborator never unfolds these large numbers by itself; `unfold` opens them, and the kernel computes with them.) -/
@[irreducible] def unitsPerOne : Nat := 2 ^ 1074

/-- 2^1024 in units of 2^-1074: a magnitude that rounds to this much or more overflows (R79). -/
@[irreducible] def magLimit : Nat := 2 ^ 2098

/-- The datum of a 64-bit pattern (R76). -/
@[irreducible] def unpack (d : Wide) : Datum :=
  let neg := d.getLsbD 63
  let e   := (d.extractLsb' 52 11).toNat
  let f   := (d.extractLsb' 0 52).toNat
  if e = 2047 then (if f = 0 then .inf neg else .nan)
  else if e = 0 then .fin neg f
  else .fin neg ((2 ^ 52 + f) * 2 ^ (e - 1))

/-- The exponent shift of a magnitude: the number of units in its last place is `2 ^ ulpShift`, with 53 significant bits
for a normal number and the unit itself for a subnormal one. -/
def ulpShift (units : Nat) : Nat := Nat.log2 units - 52

/-- `num / den` rounded to a whole number, to nearest, ties to even (R80). -/
def roundHalfEven (num den : Nat) : Nat :=
  let q := num / den
  let r := num % den
  if den < 2 * r ∨ (2 * r = den ∧ q % 2 = 1) then q + 1 else q

/-- The magnitude `num / den` (in units of 2^-1074) rounded once to 53 significant bits, to nearest, ties to even, with
gradual underflow (R80) and before the check for overflow. -/
@[irreducible] def roundMag (num den : Nat) : Nat :=
  let k := ulpShift (num / den)
  roundHalfEven num (den * 2 ^ k) * 2 ^ k

/-- A rounded magnitude with a sign: infinity of that sign when the rounded result overflows (R79). -/
def ofMag (neg : Bool) (mag : Nat) : Datum :=
  if magLimit ≤ mag then .inf neg else .fin neg mag

/-- The signed value of a finite datum, in units of 2^-1074. -/
def signedMag (neg : Bool) (mag : Nat) : Int := if neg then -(mag : Int) else mag

/-- The sign bit reversed (a NaN stays a NaN). -/
def fneg : Datum → Datum
  | .nan       => .nan
  | .inf neg   => .inf (!neg)
  | .fin neg m => .fin (!neg) m

/-- IEEE addition (R79): infinities of unlike signs give a NaN; an exact zero sum is `+0` unless both operands are
negative. -/
def fadd : Datum → Datum → Datum
  | .nan, _              => .nan
  | _, .nan              => .nan
  | .inf a, .inf b       => if a = b then .inf a else .nan
  | .inf a, .fin _ _     => .inf a
  | .fin _ _, .inf b     => .inf b
  | .fin a m, .fin b n   =>
    let z := signedMag a m + signedMag b n
    if z = 0 then .fin (a && b) 0 else ofMag (decide (z < 0)) (roundMag z.natAbs 1)

/-- IEEE subtraction (R79): `x - y` is `x + (-y)`. -/
def fsub (x y : Datum) : Datum := fadd x (fneg y)

/-- IEEE multiplication (R79): `0 * inf` is a NaN; the sign is the product of the signs. -/
def fmul : Datum → Datum → Datum
  | .nan, _            => .nan
  | _, .nan            => .nan
  | .inf a, .inf b     => .inf (a != b)
  | .inf a, .fin b n   => if n = 0 then .nan else .inf (a != b)
  | .fin a m, .inf b   => if m = 0 then .nan else .inf (a != b)
  | .fin a m, .fin b n => ofMag (a != b) (roundMag (m * n) unitsPerOne)

/-- IEEE division (R79). The block divides by 4294967295.0 alone; the arms for other divisors are IEEE 754's. -/
def fdiv : Datum → Datum → Datum
  | .nan, _            => .nan
  | _, .nan            => .nan
  | .inf _, .inf _     => .nan
  | .inf a, .fin b _   => .inf (a != b)
  | .fin a _, .inf b   => .fin (a != b) 0
  | .fin a m, .fin b n =>
    if n = 0 then (if m = 0 then .nan else .inf (a != b))
    else ofMag (a != b) (roundMag (m * unitsPerOne) n)

/-- The IEEE comparison `x <= y` (R78): false when either is a NaN, zeros of either sign equal, infinities at the ends. -/
def fle : Datum → Datum → Bool
  | .nan, _            => false
  | _, .nan            => false
  | .inf true, _       => true
  | _, .inf false      => true
  | .inf false, _      => false
  | _, .inf true       => false
  | .fin a m, .fin b n => decide (signedMag a m ≤ signedMag b n)

/-- `U2D(raw)`: the number `raw`, exactly and without narrowing (R77). -/
def u2d (raw : Word) : Datum := .fin false (raw.toNat * unitsPerOne)

/-- Bits 62:0 of a finite pattern: the biased exponent above the fraction (R76). -/
@[irreducible] def packMag (mag : Nat) : BitVec 63 :=
  BitVec.ofNat 63 (ulpShift mag * 2 ^ 52 + mag / 2 ^ ulpShift mag)

/-- The NaN pattern with the sign `c[52]` and the fraction `c[51:0]`; a zero fraction, which would be an infinity, is
replaced by 1, so that every NaN pattern and nothing else is the image of some `c` (R81). -/
def nanPattern (c : BitVec 53) : Wide :=
  let f := c.extractLsb' 0 52
  c.extractLsb' 52 1 ++ 0x7FF#11 ++ (if f = 0#52 then 1#52 else f)

/-- The 64-bit pattern of a datum (R76); `c` chooses the pattern of a NaN (R81). -/
def pack (c : BitVec 53) : Datum → Wide
  | .nan         => nanPattern c
  | .inf neg     => BitVec.ofBool neg ++ 0x7FF#11 ++ 0#52
  | .fin neg mag => BitVec.ofBool neg ++ packMag mag

end Sys2Proof.Machine
end

