-- ==== Sys2Proof/Machine/Flags.lean ====
section
/-!
DEFINITION. The conditions a command tests. The block has no flags, no condition codes and no floating-point exception
flags (10_state.md R15, 41_range_conversion.md R84), so nothing here is stored: the only conditions are the two tests
for an invalid range (60_exceptions.md R117), which depend on the operands alone.
-/

namespace Sys2Proof.Machine

/-- Invalid integer bounds (41 R73): `max <= min` by signed comparison of the operands, not of a difference. -/
def intBoundsInvalid (lo hi : Word) : Bool := decide (hi.toInt ≤ lo.toInt)

/-- Invalid double bounds (41 R78): the IEEE comparison `max <= min` is true; a NaN bound is not rejected. -/
def dblBoundsInvalid (lo hi : Wide) : Bool := fle (unpack hi) (unpack lo)

end Sys2Proof.Machine
end

