-- ==== Sys2Proof/Config.lean ====
section
/-!
DEFINITION. What the spec leaves open (00_scope.md R5, the rows of kind `open`): the two free values, as opaque
constants with no body, and the type of the remainder convention. The values the spec fixes or decides stand in
Machine/Params.lean.
-/

namespace Sys2Proof.Config

/-- `STATE_RESET` (70_reset_and_hazards.md R137, 93 U3: "any value, fixed at reset", "Never a constant"). The argument
`n` numbers the resets, `old` is the contents of `STATE` before it, and `discarded` is the command that the reset discarded,
if one was in flight: an implementation may "leave it as it was", and R136 leaves open whether the discarded command had
already written it. Nothing says how the value depends on the three. DESIGN CHOICE: log entries 1 and 14. -/
opaque stateReset (n : Nat) (old : Word) (discarded : Option Cmd) : Word

/-- `NAN_OUT` (41_range_conversion.md R81, 93 U4: "any value among NaN patterns, chosen anew each time"): the sign (bit
52) and the fraction (bits 51:0) of the `n`-th NaN response. Log entry 6. -/
opaque nanOut (n : Nat) : BitVec 53

/-- The two sign conventions of 41_range_conversion.md R71 for the remainder of a negative dividend. -/
inductive RemMode where
  /-- The non-negative remainder, the spec's decision D8. -/
  | euclid
  /-- The remainder with the sign of the dividend: the reading the spec rejects and describes. -/
  | trunc
deriving DecidableEq, Repr

end Sys2Proof.Config
end

