-- ==== Sys2Proof/Machine/Params.lean ====
section
/-!
DEFINITION. The values the spec fixes or decides (00_scope.md R2, R5), each named once: an audit of a literal (93 U1,
log entry 12) or of the remainder decision (92 D8, log entry 8) is one change here.
-/

namespace Sys2Proof.Machine.Params

/-- `C_ADD` (00 R2, R5). -/
def cAdd : Word := 0xE120FC15#32

/-- `C_MUL1`, a 64-bit constant (00 R2, R5). -/
def cMul1 : Wide := 0x000000004A39B70D#64

/-- `C_MUL2`, a 64-bit constant (00 R2, R5). -/
def cMul2 : Wide := 0x0000000012FAD5C9#64

/-- `INT32_MAX`, the exclusive upper bound of `NEXT` (41 R75). PRESUMED by the spec itself (93 G1): log entry 13. -/
def int32Max : Word := 0x7FFFFFFF#32

/-- `UINT32_MAX`, the divisor of the double conversion (41 R75). -/
def uint32Max : Word := 0xFFFFFFFF#32

/-- `INT_REM_MODE`: the spec's decision D8 (41 R71). -/
def intRemMode : Config.RemMode := .euclid

/-- The binary64 pattern of `+0.0`, the lower bound of the default shapes (42 R96, R97). -/
def dblZero : Wide := 0x0000000000000000#64

/-- The binary64 pattern of `1.0`, the upper bound of `NEXTD` (42 R96). -/
def dblOne : Wide := 0x3FF0000000000000#64

end Sys2Proof.Machine.Params
end

