-- ==== Sys2Proof/Machine/Convert.lean ====
section
/-!
DEFINITION. The stateless range converter (41_range_conversion.md): `CONV_INT` (R67 to R75) and `CONV_DBL` (R76 to R84).
`none` is the error `INVALID_RANGE`, which depends on the bounds alone (60 R117).
-/

namespace Sys2Proof.Machine

/-- `NARROW(raw)` (R69): the signed 32-bit value with the same bits. -/
def narrow (raw : Word) : Int := raw.toInt

/-- The remainder of R71 in either convention: Euclidean (`EMOD`), or with the sign of the dividend. -/
def remainder (mode : Config.RemMode) (r d : Int) : Int :=
  match mode with
  | .euclid => Int.emod r d
  | .trunc  => Int.tmod r d

/-- `CONV_INT(raw, min, max)` (R72) under a given remainder convention: the difference is exact (R70) and the sum is
encoded in 32 bits, where it always fits under `euclid` (R74). -/
def convIntWith (mode : Config.RemMode) (raw lo hi : Word) : Option Word :=
  if intBoundsInvalid lo hi then none
  else some (BitVec.ofInt 32 (lo.toInt + remainder mode (narrow raw) (hi.toInt - lo.toInt)))

/-- `CONV_INT(raw, min, max)` (R72) under the spec's decision D8. -/
def convInt (raw lo hi : Word) : Option Word := convIntWith Params.intRemMode raw lo hi

/-- `u` of R82: `raw` over 4294967295.0, rounded. -/
def dblU (raw : Word) : Datum := fdiv (u2d raw) (u2d Params.uint32Max)

/-- `w` of R82: `max - min`, rounded. -/
def dblW (lo hi : Wide) : Datum := fsub (unpack hi) (unpack lo)

/-- `p` of R82: `u * w`, rounded by itself (no fused multiply-add, R80). -/
def dblP (raw : Word) (lo hi : Wide) : Datum := fmul (dblU raw) (dblW lo hi)

/-- `CONV_DBL(raw, min, max)` (R82): four operations, each rounded separately. -/
def convDbl (raw : Word) (lo hi : Wide) : Option Datum :=
  if dblBoundsInvalid lo hi then none
  else some (fadd (dblP raw lo hi) (unpack lo))

end Sys2Proof.Machine
end

