-- ==== Sys2Proof/Machine/Operands.lean ====
section
/-!
DEFINITION. How results are laid out in `rsp.data` (30_encoding.md R44). The operands themselves are the fields of
`Instr`, read from the command word by the decoder (R35, R37 to R39); there is no addressing mode (20_memory.md R31).
-/

namespace Sys2Proof.Machine

/-- A 32-bit result in `data[31:0]`, zero above: zero extension, not sign extension (R44). -/
def dataOfWord (v : Word) : Wide := v.setWidth 64

/-- The low byte of a converted value in `data[7:0]`, zero above (R44, 42 R95). -/
def dataOfByte (v : Word) : Wide := (v.extractLsb' 0 8).setWidth 64

end Sys2Proof.Machine
end

