-- ==== Sys2Proof/Machine/State.lean ====
section
/-!
DEFINITION. The state of the machine: the one register of the block (10_state.md R10, R11, R19) and the channels of
30_encoding.md R34 by which the host meets it; the two error codes (60_exceptions.md R116); the state after reset
(70_reset_and_hazards.md R136, R137).
-/

namespace Sys2Proof.Machine

/-- One sample of the reset input (30 R34, 70 R136), taken once a step. DESIGN CHOICE: log entry 4. -/
inductive ResetSample where
  /-- The reset input is not asserted: the block runs. -/
  | released
  /-- Asserted, with no command in progress: the block accepts nothing and answers nothing. -/
  | asserted
  /-- Asserted after the next command was accepted and before it was answered: that command is discarded. -/
  | assertedMidCommand
deriving DecidableEq, Repr

/-- The response codes (60 R116). Code 3 is never produced (30 R43), so it has no constructor. -/
inductive ErrCode where
  /-- 0: the command completed. -/
  | ok
  /-- 1: `max <= min` on a bounded draw (R117). -/
  | invalidRange
  /-- 2: `op` is none of the fifteen (R118). -/
  | illegalOp
deriving DecidableEq, Repr

/-- The state. `STATE` is the spec's; the rest is the host's side of the three channels of R34 and the two counters
that number the free values (INVENTORY.md, State). -/
structure State where
  /-- The 32-bit state register, the only architectural state (10 R10, R11, R19). -/
  STATE : Word
  /-- The command channel: the words the host presents, the next to be accepted first (30 R34, 20 R27). Log entry 2. -/
  cmds : List Cmd
  /-- The response channel: the responses produced and not yet taken, oldest first (30 R34, R45). Log entry 3. -/
  rsps : List Rsp
  /-- The reset input, one sample a step; an exhausted list reads as released (70 R136). Log entry 4. -/
  resetLine : List ResetSample
  /-- The model's own: how many NaN patterns have been chosen (41 R81). Log entry 6. -/
  nanDraws : Nat
  /-- The model's own: how many reset values have been chosen (70 R137). Log entry 1. -/
  resets : Nat
deriving DecidableEq, Repr

/-- Reasons for the machine to stop with a fault: none. Both errors of the spec are responses, after which the machine
goes on (60 R122, R123), and nothing else stops it ("No trap, no hang, no stuck state", 00 section 7). Log entry 10. -/
inductive Fault where
deriving DecidableEq, Repr

/-- Reasons for the model to give no meaning. -/
inductive Refusal where
  /-- Raised by `exec` alone, for an instruction whose meaning is still to be written; safe. No arm uses it. -/
  | notModelled (mnemonic : String)
deriving DecidableEq, Repr

/-- What the ports bring to one step (`State.portEvent`); each carries the state after the ports have been read. -/
inductive PortEvent where
  /-- The reset input is asserted: nothing is accepted. -/
  | reset (s : State)
  /-- No command is presented: the block stays idle. -/
  | idle (s : State)
  /-- The word `w` is accepted. -/
  | command (w : Cmd) (s : State)
deriving DecidableEq, Repr

/-- The machine right after reset (70 R136, R137): idle, no command in progress, `STATE` unspecified (the opaque
`Config.stateReset`, log entry 1), the reset input released. -/
def State.reset : State where
  STATE     := Config.stateReset 0 0#32 none
  cmds      := []
  rsps      := []
  resetLine := []
  nanDraws  := 0
  resets    := 1

end Sys2Proof.Machine
end

