-- ==== Sys2Proof/Machine/Transform.lean ====
section
/-!
DEFINITION. The mixing transform `T` (40_transform.md R56 to R60).
-/

namespace Sys2Proof.Machine

/-- `FOLD(w)`: the XOR of the halves of a 64-bit value (R56). -/
def fold (w : Wide) : Word := ((w >>> 32) ^^^ w).setWidth 32

/-- `T(seed)`, by R57's five steps at R57's widths: the sum is reduced modulo 2^32 before it is widened, and `m1` is
truncated to 32 bits before it is widened again (R58). The constants stand on the left, so that an evaluation on an unknown
`seed` gets stuck at once. -/
def transform (seed : Word) : Word :=
  let s1   := Params.cAdd + seed
  let tmp  := Params.cMul1 * s1.setWidth 64
  let m1   := fold tmp
  let tmp2 := Params.cMul2 * m1.setWidth 64
  fold tmp2

end Sys2Proof.Machine
end

