-- ==== Sys2Proof/Machine/Ops.lean ====
section
/-!
DEFINITION. The named operations on the state: the response word and the response channel, the write of `STATE`, ending
a command with an error, the two kinds of draw, the ports and the reset input, and what the host may do.
-/

namespace Sys2Proof.Machine

/-! ### The response word -/

/-- The two bits of a response code (60 R116). -/
def ErrCode.code : ErrCode → BitVec 2
  | .ok           => 0#2
  | .invalidRange => 1#2
  | .illegalOp    => 2#2

/-- The response word `{err, data}` (30 R43). -/
def rspWord (e : ErrCode) (data : Wide) : Rsp := e.code ++ data

/-- `rsp[65:64]` (30 R43). -/
def rspErr (r : Rsp) : BitVec 2 := r.extractLsb' 64 2

/-- `rsp[63:0]` (30 R43). -/
def rspData (r : Rsp) : Wide := r.extractLsb' 0 64

/-! ### Ending a command, writing `STATE` -/

/-- One response leaves, after all earlier ones (30 R45). -/
def State.respond (e : ErrCode) (data : Wide) (s : State) : State :=
  { s with rsps := s.rsps ++ [rspWord e data] }

/-- `respond OK(data)` (00 R7). -/
def State.respondOk (data : Wide) (s : State) : State := s.respond .ok data

/-- `raise <Error>` (00 R7, 60 R122), the block's whole exception entry: the error's code, `data` = 0, and nothing else:
`STATE` keeps its value, nothing is saved, no mode changes. There is no return to model (60 R123): the next command runs
as if the failed one had not been issued. -/
def State.raise (e : ErrCode) (s : State) : State := s.respond e 0#64

/-- `STATE <- v` (00 R7). -/
def State.writeSTATE (v : Word) (s : State) : State := { s with STATE := v }

/-- Respond with a double (30 R44). A NaN result takes a fresh free NaN pattern (41 R81). -/
def State.respondDatum (y : Datum) (s : State) : State :=
  { s.respondOk (pack (Config.nanOut s.nanDraws) y) with
    nanDraws := if y = .nan then s.nanDraws + 1 else s.nanDraws }

/-! ### The draws -/

/-- A stateful integer draw (42 R90, R100): validate; advance `STATE` to `raw = T(STATE)`; convert the same `raw`;
`layout` places the value in `data`. -/
def drawInt (layout : Word → Wide) (lo hi : Word) (s : State) : State :=
  match convInt (transform s.STATE) lo hi with
  | none   => s.raise .invalidRange
  | some v => (s.writeSTATE (transform s.STATE)).respondOk (layout v)

/-- A stateful double draw (42 R90, R100). -/
def drawDbl (lo hi : Wide) (s : State) : State :=
  match convDbl (transform s.STATE) lo hi with
  | none   => s.raise .invalidRange
  | some y => (s.writeSTATE (transform s.STATE)).respondDatum y

/-- A stateless integer draw (43 R106): `raw = T(seed)`; `STATE` is neither read nor written. -/
def sdrawInt (seed lo hi : Word) (s : State) : State :=
  match convInt (transform seed) lo hi with
  | none   => s.raise .invalidRange
  | some v => s.respondOk (dataOfWord v)

/-- A stateless double draw (43 R106). -/
def sdrawDbl (seed : Word) (lo hi : Wide) (s : State) : State :=
  match convDbl (transform seed) lo hi with
  | none   => s.raise .invalidRange
  | some y => s.respondDatum y

/-! ### The ports -/

/-- What an asserted reset input does to the block (70 R136, R137): `STATE` becomes unspecified, a fresh free value that may
depend on the command `discarded`, if one was in flight, and on `STATE` before it. Whether that command had already written
`STATE` is open (R136); the model does not settle it. DESIGN CHOICE: log entry 14. Responses already produced stay in the
channel (log entry 5). -/
def State.resetBlock (discarded : Option Cmd) (s : State) : State :=
  { s with STATE := Config.stateReset s.resets s.STATE discarded, resets := s.resets + 1 }

/-- Read the ports for one step. The reset input comes first: while it is asserted nothing is accepted and nothing is
answered, and a command in flight, the first of `cmds`, is discarded (70 R136). The discarded command is not executed: that
it may have written `STATE` shows only in the free value of `resetBlock`, which is given its word (DESIGN CHOICE: log entries
4 and 14). Otherwise the block accepts the next word of the command
channel (20 R27), or stays idle when none is presented (60 R127). -/
def State.portEvent (s : State) : PortEvent :=
  match s.resetLine with
  | .asserted :: line           => .reset ({ s with resetLine := line }.resetBlock none)
  | .assertedMidCommand :: line => .reset ({ s with resetLine := line, cmds := s.cmds.tail }.resetBlock s.cmds.head?)
  | line =>
    match s.cmds with
    | []        => .idle { s with resetLine := line.tail }
    | w :: rest => .command w { s with resetLine := line.tail, cmds := rest }

/-! ### The host -/

/-- The host presents a command after those it has presented already (30 R34). -/
def State.present (w : Cmd) (s : State) : State := { s with cmds := s.cmds ++ [w] }

/-- The host takes the oldest response, if there is one (30 R34, R45); nothing else changes (20 R25 d). -/
def State.takeResponse (s : State) : Option (Rsp × State) :=
  match s.rsps with
  | []        => none
  | r :: rest => some (r, { s with rsps := rest })

end Sys2Proof.Machine
end

