-- ==== Sys2Proof/Machine/Stateful.lean ====
section
/-!
DEFINITION. The commands that touch `STATE` (42_stateful_draws.md): `SEED` and the seven stateful draws. A draw without
a bound has the default bound filled in (30 R48, 42 R92, R93, R96, R97).
-/

namespace Sys2Proof.Machine

/-- What every meaning answers. -/
abbrev Result := Host.Outcome State Fault Refusal

/-- `SEED seed` (R91): `STATE <- seed`, without applying `T`; `OK` with zero data. -/
def execSeed (seed : Word) (s : State) : Result := .next ((s.writeSTATE seed).respondOk 0#64)

/-- `NEXT` (R92): the integer range `[0, INT32_MAX)`. -/
def execNext (s : State) : Result := .next (drawInt dataOfWord 0#32 Params.int32Max s)

/-- `NEXTM max` (R93): the integer range `[0, max)`. -/
def execNextm (hi : Word) (s : State) : Result := .next (drawInt dataOfWord 0#32 hi s)

/-- `NEXTR min, max` (R94): the integer range `[min, max)`. -/
def execNextr (lo hi : Word) (s : State) : Result := .next (drawInt dataOfWord lo hi s)

/-- `NEXTB` (R95): a `NEXT` draw, its converted value narrowed to the lowest 8 bits. -/
def execNextb (s : State) : Result := .next (drawInt dataOfByte 0#32 Params.int32Max s)

/-- `NEXTD` (R96): from `+0.0` to `1.0`. -/
def execNextd (s : State) : Result := .next (drawDbl Params.dblZero Params.dblOne s)

/-- `NEXTDM max` (R97): from `+0.0` to `max`. -/
def execNextdm (hi : Wide) (s : State) : Result := .next (drawDbl Params.dblZero hi s)

/-- `NEXTDR min, max` (R98): from `min` to `max`. -/
def execNextdr (lo hi : Wide) (s : State) : Result := .next (drawDbl lo hi s)

end Sys2Proof.Machine
end

