-- ==== Sys2Proof/Machine/Stateless.lean ====
section
/-!
DEFINITION. The commands that neither read nor write `STATE`: `MIX` (40_transform.md R62) and the six stateless draws
(43_stateless_draws.md R106 to R112).
-/

namespace Sys2Proof.Machine

/-- `MIX seed` (40 R62): `T(seed)`, zero-extended, unconverted. -/
def execMix (seed : Word) (s : State) : Result := .next (s.respondOk (dataOfWord (transform seed)))

/-- `SNEXT seed` (R107). -/
def execSnext (seed : Word) (s : State) : Result := .next (sdrawInt seed 0#32 Params.int32Max s)

/-- `SNEXTM seed, max` (R108). -/
def execSnextm (seed hi : Word) (s : State) : Result := .next (sdrawInt seed 0#32 hi s)

/-- `SNEXTR seed, min, max` (R109). -/
def execSnextr (seed lo hi : Word) (s : State) : Result := .next (sdrawInt seed lo hi s)

/-- `SNEXTD seed` (R110). -/
def execSnextd (seed : Word) (s : State) : Result := .next (sdrawDbl seed Params.dblZero Params.dblOne s)

/-- `SNEXTDM seed, max` (R111). -/
def execSnextdm (seed : Word) (hi : Wide) (s : State) : Result := .next (sdrawDbl seed Params.dblZero hi s)

/-- `SNEXTDR seed, min, max` (R112). -/
def execSnextdr (seed : Word) (lo hi : Wide) (s : State) : Result := .next (sdrawDbl seed lo hi s)

end Sys2Proof.Machine
end

