-- ==== Sys2Proof/Machine/Dispatch.lean ====
section
/-!
DEFINITION. One arm per command (30_encoding.md R41): the meaning of each.
-/

namespace Sys2Proof.Machine

def exec (i : Instr) (s : State) : Host.Outcome State Fault Refusal :=
  match i with
  | .seed seed => Sys2Proof.Machine.execSeed seed s
  | .mix seed => Sys2Proof.Machine.execMix seed s
  | .next => Sys2Proof.Machine.execNext s
  | .nextm hi => Sys2Proof.Machine.execNextm hi s
  | .nextr lo hi => Sys2Proof.Machine.execNextr lo hi s
  | .nextb => Sys2Proof.Machine.execNextb s
  | .nextd => Sys2Proof.Machine.execNextd s
  | .nextdm hi => Sys2Proof.Machine.execNextdm hi s
  | .nextdr lo hi => Sys2Proof.Machine.execNextdr lo hi s
  | .snext seed => Sys2Proof.Machine.execSnext seed s
  | .snextm seed hi => Sys2Proof.Machine.execSnextm seed hi s
  | .snextr seed lo hi => Sys2Proof.Machine.execSnextr seed lo hi s
  | .snextd seed => Sys2Proof.Machine.execSnextd seed s
  | .snextdm seed hi => Sys2Proof.Machine.execSnextdm seed hi s
  | .snextdr seed lo hi => Sys2Proof.Machine.execSnextdr seed lo hi s

end Sys2Proof.Machine
end

