-- ==== Sys2Proof/Machine/Step.lean ====
section
/-!
DEFINITION. One step: the ports are read, and at most one command is accepted, executed and answered (20_memory.md R24,
R27). There is no program counter and no fetch (10_state.md R14): the next instruction is the next word of the command
channel.
-/

namespace Sys2Proof.Machine

/-- One step. A legal word runs its command; any other word ends with `ILLEGAL_OP`, its other fields unexamined
(30 R42, 60 R118, R121). Under reset, and with no command presented, nothing is accepted (70 R136, 60 R127). -/
def step (s : State) : Host.Outcome State Fault Refusal :=
  match s.portEvent with
  | .reset t     => .next t
  | .idle t      => .next t
  | .command w t =>
    match decode w with
    | some i => exec i t
    | none   => .next (t.raise .illegalOp)

/-- `s` with the word `w` presented first on the command channel and the reset input released for this step, so that
the very next step accepts exactly `w` (log entry 2). -/
def State.withFetchWord (s : State) (nbits w : Nat) : State :=
  { s with cmds := BitVec.ofNat 168 (w % 2 ^ nbits) :: s.cmds, resetLine := .released :: s.resetLine }

end Sys2Proof.Machine
end

