-- ==== Sys2Proof/Machine/Assembler.lean ====
section
/-!
DEFINITION. The host's assembler (30_encoding.md R46) and its pseudo-instructions (R47), on lines that have already been
split into a mnemonic and its operands. The block never sees any of it: a line becomes commands, and `encode` gives their
words, with zero in every ignored bit. Log entry 11.
-/

namespace Sys2Proof.Machine

/-- The mnemonics of R41 and, last, those of R47 that are no command of their own. -/
inductive Mnemonic where
  | SEED | MIX
  | NEXT | NEXTM | NEXTR | NEXTB | NEXTD | NEXTDM | NEXTDR
  | SNEXT | SNEXTM | SNEXTR | SNEXTD | SNEXTDM | SNEXTDR
  | NEXTBYTES | SEEDT
deriving DecidableEq, Repr

/-- An operand as R46 writes it. -/
inductive AsmOperand where
  /-- A decimal integer, with an optional `-`. -/
  | int (v : Int)
  /-- `0x` and up to 8 hexadecimal digits: a 32-bit pattern. -/
  | hex (v : Word)
  /-- `f64:0x` and 16 hexadecimal digits: a binary64 pattern. -/
  | f64 (v : Wide)
  /-- A decimal literal with a `.` or an exponent: `(-1)^neg * digits * 10^exp`. -/
  | dec (neg : Bool) (digits : Nat) (exp : Int)
deriving DecidableEq, Repr

/-- An integer or seed operand: the low 32 bits of the number (R46). -/
def intOperand : AsmOperand → Option Word
  | .int v => some (BitVec.ofInt 32 v)
  | .hex v => some v
  | .f64 _ => none
  | .dec _ _ _ => none

/-- The binary64 datum nearest to a decimal literal, ties to even (R46): the literal is a fraction, rounded once. -/
def decDatum (neg : Bool) (digits : Nat) : Int → Datum
  | .ofNat e   => ofMag neg (roundMag (digits * 10 ^ e * unitsPerOne) 1)
  | .negSucc e => ofMag neg (roundMag (digits * unitsPerOne) (10 ^ (e + 1)))

/-- A double operand: its pattern, or the pattern of the nearest datum (R46). A literal is never a NaN, so the argument
that chooses a NaN pattern is not used. -/
def dblOperand : AsmOperand → Option Wide
  | .f64 v => some v
  | .dec neg digits exp => some (pack 0#53 (decDatum neg digits exp))
  | .int _ => none
  | .hex _ => none

/-- The count of `NEXTBYTES n`, a natural number (R47). -/
def countOperand : AsmOperand → Option Nat
  | .int (.ofNat n) => some n
  | .int (.negSucc _) => none
  | .hex v => some v.toNat
  | .f64 _ => none
  | .dec _ _ _ => none

/-- The commands of one line (R46, R47): operands in the order `seed`, `min`, `max`. `t` is the value the host reads from
its time source at that moment, for `SEEDT` and for a stateless draw without a seed operand: any 32-bit value (93 U10).
`none` is a line the syntax does not have. -/
def assemble (t : Word) : Mnemonic → List AsmOperand → Option (List Instr)
  | .SEED, [s] => do pure [.seed (← intOperand s)]
  | .MIX, [s] => do pure [.mix (← intOperand s)]
  | .NEXT, [] => some [.next]
  | .NEXTM, [hi] => do pure [.nextm (← intOperand hi)]
  | .NEXTR, [lo, hi] => do pure [.nextr (← intOperand lo) (← intOperand hi)]
  | .NEXTB, [] => some [.nextb]
  | .NEXTD, [] => some [.nextd]
  | .NEXTDM, [hi] => do pure [.nextdm (← dblOperand hi)]
  | .NEXTDR, [lo, hi] => do pure [.nextdr (← dblOperand lo) (← dblOperand hi)]
  | .SNEXT, [s] => do pure [.snext (← intOperand s)]
  | .SNEXT, [] => some [.snext t]
  | .SNEXTM, [s, hi] => do pure [.snextm (← intOperand s) (← intOperand hi)]
  | .SNEXTM, [hi] => do pure [.snextm t (← intOperand hi)]
  | .SNEXTR, [s, lo, hi] => do pure [.snextr (← intOperand s) (← intOperand lo) (← intOperand hi)]
  | .SNEXTR, [lo, hi] => do pure [.snextr t (← intOperand lo) (← intOperand hi)]
  | .SNEXTD, [s] => do pure [.snextd (← intOperand s)]
  | .SNEXTD, [] => some [.snextd t]
  | .SNEXTDM, [s, hi] => do pure [.snextdm (← intOperand s) (← dblOperand hi)]
  | .SNEXTDM, [hi] => do pure [.snextdm t (← dblOperand hi)]
  | .SNEXTDR, [s, lo, hi] => do pure [.snextdr (← intOperand s) (← dblOperand lo) (← dblOperand hi)]
  | .SNEXTDR, [lo, hi] => do pure [.snextdr t (← dblOperand lo) (← dblOperand hi)]
  | .NEXTBYTES, [n] => do pure (List.replicate (← countOperand n) .nextb)
  | .SEEDT, [] => some [.seed t]
  | _, _ => none

end Sys2Proof.Machine
end

