-- ==== Sys2Proof/Safety.lean ====
section
/-!
DEFINITION. The terms in which statements speak of a safe run: outcomes, response words as the spec lays them out, which
commands write `STATE`, sequences of commands, and what a representable magnitude is. Written from the spec's rules and
not from the meanings, so that a statement compares the two.
-/

namespace Sys2Proof.Machine

/-- The machine goes on: it neither faults nor refuses (00_scope.md section 7: "No trap, no hang, no stuck state"). -/
def Continues (o : Host.Outcome State Fault Refusal) : Prop := ∃ t, o = .next t

/-- The response word of a command that completed: `err = 0` above `data` (30 R43). -/
def okWord (data : Wide) : Rsp := 0#2 ++ data

/-- The response word of `INVALID_RANGE`: `err = 1`, `data = 0` (30 R43, 60 R116). -/
def invalidRangeWord : Rsp := 1#2 ++ 0#64

/-- The response word of `ILLEGAL_OP`: `err = 2`, `data = 0` (30 R43, 60 R116). -/
def illegalOpWord : Rsp := 2#2 ++ 0#64

/-- The invariant of the response channel: every response in it is one the block may produce (30 R43). -/
def ResponsesLegal (s : State) : Prop := ∀ r ∈ s.rsps, rspLegal r = true

/-- Two responses that agree, where NaN results count "equal as NaNs" (43 R113, 42 R99). -/
def rspAgree (r r' : Rsp) : Prop :=
  r = r' ∨ ∃ d d', r = okWord d ∧ r' = okWord d' ∧ nanPatternOk d = true ∧ nanPatternOk d' = true

/-- The seven stateful draws (10 R12). -/
def statefulDraw : Instr → Bool
  | .next | .nextm _ | .nextr _ _ | .nextb | .nextd | .nextdm _ | .nextdr _ _ => true
  | .seed _ | .mix _ => false
  | .snext _ | .snextm _ _ | .snextr _ _ _ | .snextd _ | .snextdm _ _ | .snextdr _ _ _ => false

/-- The bounds of the command are invalid: `max <= min`, with `min` zero in the one-bound forms (60 R117). -/
def rangeInvalid : Instr → Bool
  | .nextm hi | .snextm _ hi => decide (hi.toInt ≤ 0)
  | .nextr lo hi | .snextr _ lo hi => decide (hi.toInt ≤ lo.toInt)
  | .nextdm hi | .snextdm _ hi => fle (unpack hi) (.fin false 0)
  | .nextdr lo hi | .snextdr _ lo hi => fle (unpack hi) (unpack lo)
  | .seed _ | .mix _ | .next | .nextb | .nextd | .snext _ | .snextd _ => false

/-- The value of `STATE` after a command, by 10 R12: `SEED` loads its operand, a stateful draw that does not end in an
error advances by `T`, and nothing else writes it. -/
def nextSTATE (i : Instr) (x : Word) : Word :=
  match i with
  | .seed v => v
  | i => if statefulDraw i && !rangeInvalid i then transform x else x

/-- A sequence of commands executed in order (20 R27). -/
def execAll : List Instr → State → Host.Outcome State Fault Refusal
  | [], s => .next s
  | i :: is, s =>
    match exec i s with
    | .next t    => execAll is t
    | .fault r   => .fault r
    | .refused r => .refused r

/-- The non-negative remainder of the narrowed `raw` by `d`, by the second wording of 41 R71: with `r = s32(raw)`,
`r mod d` for `r >= 0`; else 0 or `d - t`, where `t = (-r) mod d`. -/
def remainderOfRaw (raw : Word) (d : Nat) : Nat :=
  if raw.toNat < 2 ^ 31 then raw.toNat % d
  else if (2 ^ 32 - raw.toNat) % d = 0 then 0 else d - (2 ^ 32 - raw.toNat) % d

/-- A magnitude (in units of 2^-1074) with at most 53 significant bits: a binary64 magnitude, but for overflow (41 R76). -/
def Representable (mag : Nat) : Prop := ∃ c k, c < 2 ^ 53 ∧ mag = c * 2 ^ k

/-- The number a finite datum stands for (41 R76); infinities and NaNs are no numbers and read as 0 here. -/
def Datum.value : Datum → ℚ
  | .fin neg mag => (signedMag neg mag : ℚ) / (unitsPerOne : ℚ)
  | .inf _ => 0
  | .nan => 0

/-- `y` is the exact result `x` rounded once (41 R79, R80): to a magnitude of at most 53 significant bits with the sign of
`x`, no such number being nearer to `x`, and of two equally near ones the one whose last place is even; an infinity of that
sign when the rounded magnitude reaches 2^1024. -/
def RoundsTo (x : ℚ) (y : Datum) : Prop :=
  ∃ (neg : Bool) (mag : Nat), Representable mag ∧ (x < 0 → neg = true) ∧ (0 < x → neg = false) ∧
    (∀ (neg' : Bool) (m : Nat), Representable m →
      |(Datum.fin neg mag).value - x| ≤ |(Datum.fin neg' m).value - x| ∧
      (m ≠ mag → |(Datum.fin neg mag).value - x| = |(Datum.fin neg' m).value - x| →
        mag / 2 ^ ulpShift mag % 2 = 0)) ∧
    y = if magLimit ≤ mag then .inf neg else .fin neg mag

/-- The datum is a finite number. -/
def Datum.IsFinite (x : Datum) : Prop := ∃ neg mag, x = .fin neg mag

end Sys2Proof.Machine
end

