-- ==== Sys2Proof/Certificates/Slice0/Obligations.lean ====
section
/-!
DEFINITION. The statements for the provers, from the numbered rules of spec/. OBLIGATIONS.json lists them.
Where a statement takes the reset input to be released, it says so of `s.resetLine`: no sample is left, or the next one
is `released`. `unitsPerOne` is 2^1074 and `magLimit` 2^2098 (1.0 and 2^1024 in units of 2^-1074). That the input is held as a list of samples is the model's choice (log entry 4).
-/

open Sys2Proof Sys2Proof.Machine

/-! ### Encoding -/

/-- 30 R35, R40, R41: decoding an encoded command gives it back, for all fifteen and every operand. -/
def Obligations.DecodeOfEncode : Prop :=
  ∀ i : Instr, decode (encode i) = some i

/-- 30 R40, R46: a word that decodes to `i` and is zero in every bit `i` ignores is the word the encoder writes. -/
def Obligations.EncodeOfDecodedCanonicalWord : Prop :=
  ∀ (w : Cmd) (i : Instr), decode w = some i → i.wordCanonical w = true → encode i = w

/-- 30 R40, both sentences and the last: a word that differs from a command's word only in bits the command ignores is
the same command and makes the same step; the assembler writes zero into every ignored bit. -/
def Obligations.IgnoredBitsHaveNoEffect : Prop :=
  (∀ (w w' : Cmd) (i : Instr), decode w = some i → w' &&& i.usedBits = w &&& i.usedBits →
    decode w' = some i ∧
    ∀ (s : State) (rest : List Cmd), (s.resetLine = [] ∨ s.resetLine.head? = some .released) →
      step { s with cmds := w' :: rest } = step { s with cmds := w :: rest }) ∧
  ∀ i : Instr, i.wordCanonical (encode i) = true

/-- 30 R42 and 60 R118: the illegal opcodes, how many they are, the ranges R42 lists, and what an illegal command does:
`ILLEGAL_OP`, `STATE` unchanged, no other field examined. -/
def Obligations.IllegalOpcodesEndWithIllegalOp : Prop :=
  (∀ w : Cmd, decode w = none ↔ opLegal (opOf w) = false) ∧
  ((List.range 256).filter fun n => !opLegal (BitVec.ofNat 8 n)).length = 241 ∧
  (∀ op : BitVec 8,
    (op = 0x00#8 ∨ op.getLsbD 7 = true ∨ op.getLsbD 6 = true ∨
     (0x03 ≤ op.toNat ∧ op.toNat ≤ 0x0F) ∨ (0x14 ≤ op.toNat ∧ op.toNat ≤ 0x17) ∨
     (0x1B ≤ op.toNat ∧ op.toNat ≤ 0x1F) ∨ (0x20 ≤ op.toNat ∧ op.toNat ≤ 0x2F) ∨
     (0x33 ≤ op.toNat ∧ op.toNat ≤ 0x37) ∨ (0x3B ≤ op.toNat ∧ op.toNat ≤ 0x3F)) ↔ opLegal op = false) ∧
  ∀ (s : State) (w : Cmd) (rest : List Cmd), (s.resetLine = [] ∨ s.resetLine.head? = some .released) →
    s.cmds = w :: rest → opLegal (opOf w) = false →
    step s = .next { s with cmds := rest, rsps := s.rsps ++ [illegalOpWord], resetLine := s.resetLine.tail }

/-- 30 R41: one word of each family, written out from R35 and R41, decodes to its command. -/
def Obligations.SampleWordsDecode : Prop :=
  decode 0x01_FFFFFFFF_0000000000000000_0000000000000000#168 = some (.seed 0xFFFFFFFF#32) ∧
  decode 0x02_00000001_0000000000000000_0000000000000000#168 = some (.mix 1#32) ∧
  decode 0x12_00000000_00000000FFFFFF9C_0000000000000064#168 = some (.nextr 0xFFFFFF9C#32 100#32) ∧
  decode 0x1A_00000000_BFF0000000000000_3FF0000000000000#168 =
    some (.nextdr 0xBFF0000000000000#64 0x3FF0000000000000#64) ∧
  decode 0x32_00000001_0000000000000005_000000000000000F#168 = some (.snextr 1#32 5#32 15#32) ∧
  decode 0x39_00000001_0000000000000000_4024000000000000#168 = some (.snextdm 1#32 0x4024000000000000#64)

/-! ### The machine as a whole -/

/-- 20 R27, 30 R34: when the reset input is released and the word presented next decodes to `i`, a step is `exec i` at
the state in which that word has been accepted. -/
def Obligations.StepRunsDecodedCommand : Prop :=
  ∀ (s : State) (w : Cmd) (rest : List Cmd) (i : Instr),
    (s.resetLine = [] ∨ s.resetLine.head? = some .released) → s.cmds = w :: rest → decode w = some i →
    step s = exec i { s with cmds := rest, resetLine := s.resetLine.tail }

/-- The model's convention for placing a word (log entry 2): the step after `withFetchWord` runs exactly the instruction
`decodeTableWord` reads from that word, at the state as it was. -/
def Obligations.PlacedWordRunsNext : Prop :=
  ∀ (s : State) (nbits w : Nat) (i : Instr), decodeTableWord nbits w = some i →
    step (s.withFetchWord nbits w) = exec i s

/-- 00 section 7 ("No trap, no hang, no stuck state"), 20 R27: every step and every command answers a next state. -/
def Obligations.MachineNeverStops : Prop :=
  (∀ s : State, Continues (step s)) ∧ ∀ (i : Instr) (s : State), Continues (exec i s)

/-- 30 R45: exactly one response for each accepted command, after all earlier ones (for a `SEED`, `OK` with zero data);
none without one. The last clause, under an asserted reset input, rests on 70 R136 (no response is produced) and on the
model's choice that responses already produced stay (log entry 5); that the reset input is a list of samples is log entry
4. -/
def Obligations.OneResponsePerAcceptedCommand : Prop :=
  ∀ s : State,
    (∀ (w : Cmd) (rest : List Cmd), (s.resetLine = [] ∨ s.resetLine.head? = some .released) → s.cmds = w :: rest →
      ∃ (t : State) (r : Rsp), step s = .next t ∧ t.cmds = rest ∧ t.rsps = s.rsps ++ [r] ∧
        ∀ v : Word, decode w = some (.seed v) → r = okWord 0#64) ∧
    ((s.resetLine = [] ∨ s.resetLine.head? = some .released) → s.cmds = [] →
      step s = .next { s with resetLine := s.resetLine.tail }) ∧
    ((s.resetLine.head? = some .asserted ∨ s.resetLine.head? = some .assertedMidCommand) →
      ∃ t : State, step s = .next t ∧ t.rsps = s.rsps)

/-- 30 R43: `err = 3` is never produced and `data` is zero beside an error; every step keeps that of all responses. -/
def Obligations.StepKeepsResponsesLegal : Prop :=
  ∀ s t : State, ResponsesLegal s → step s = .next t → ResponsesLegal t

/-- 30 R43, 70 R136: the state after reset has that invariant; the block is idle, with no command in progress. The
channels being empty, and the reset input released, are the model's choice (log entries 2, 3, 4). -/
def Obligations.ResetStateIsIdleAndLegal : Prop :=
  ResponsesLegal State.reset ∧ State.reset.cmds = [] ∧ State.reset.rsps = [] ∧ State.reset.resetLine = [] ∧
  step State.reset = .next State.reset

/-- 10 R12, the whole table: the value of `STATE` after each command, and that a command presented under an illegal
opcode does not write it. -/
def Obligations.WritersOfSTATE : Prop :=
  (∀ (i : Instr) (s : State), ∃ t : State, exec i s = .next t ∧ t.STATE = nextSTATE i s.STATE) ∧
  ∀ (s : State) (w : Cmd) (rest : List Cmd), (s.resetLine = [] ∨ s.resetLine.head? = some .released) →
    s.cmds = w :: rest → decode w = none → ∃ t : State, step s = .next t ∧ t.STATE = s.STATE

/-- The frame of every command (10 R11, R17; 30 R45): the channels other than the response channel, and the model's count
of resets, are as they were; exactly one response is added; `STATE` is as R12 says; the model's count of NaN patterns is
as it was for every command but the double draws. -/
def Obligations.FrameOfEveryCommand : Prop :=
  ∀ (i : Instr) (s t : State), exec i s = .next t →
    t.cmds = s.cmds ∧ t.resetLine = s.resetLine ∧ t.resets = s.resets ∧
    (∃ r : Rsp, t.rsps = s.rsps ++ [r]) ∧
    t.STATE = nextSTATE i s.STATE ∧
    ((opcode i).getLsbD 3 = false → t.nanDraws = s.nanDraws)

/-- 60 R117, R122: exactly the commands with invalid bounds end with `INVALID_RANGE`, whatever `STATE` is, and then
nothing but the response stream has changed. -/
def Obligations.InvalidRangeChangesNothing : Prop :=
  ∀ (i : Instr) (s : State),
    (rangeInvalid i = true → exec i s = .next { s with rsps := s.rsps ++ [invalidRangeWord] }) ∧
    (rangeInvalid i = false → ∃ (t : State) (d : Wide), exec i s = .next t ∧ t.rsps = s.rsps ++ [okWord d])

/-- 10 R13: no command returns `STATE` or a function of it without advancing it. The response of `SEED`, `MIX`, every
stateless draw and every failed draw does not depend on `STATE`; a draw that reads it leaves `T(STATE)`. -/
def Obligations.NoPeekWithoutAdvance : Prop :=
  ∀ (i : Instr) (s : State) (x : Word),
    ((statefulDraw i = false ∨ rangeInvalid i = true) →
      ∃ t t' : State, exec i s = .next t ∧ exec i { s with STATE := x } = .next t' ∧ t.rsps = t'.rsps) ∧
    (statefulDraw i = true → rangeInvalid i = false →
      ∃ t : State, exec i s = .next t ∧ t.STATE = transform s.STATE)

/-- 20 R25 (a), (c), (d), (e): `SEED` twice leaves what `SEED` once leaves; a stateless command twice gives agreeing
responses and no change of `STATE`; taking a response changes the response channel alone; an error has no side effect. -/
def Obligations.SideEffectsOfCommands : Prop :=
  (∀ (v : Word) (s : State), ∃ t t' : State,
    exec (.seed v) s = .next t ∧ exec (.seed v) t = .next t' ∧ t.STATE = v ∧ t'.STATE = v) ∧
  (∀ (i : Instr) (s : State), statefulDraw i = false → (∀ v, i ≠ .seed v) →
    ∃ (t t' : State) (r r' : Rsp), exec i s = .next t ∧ exec i t = .next t' ∧ t'.STATE = s.STATE ∧
      t.rsps = s.rsps ++ [r] ∧ t'.rsps = t.rsps ++ [r'] ∧ rspAgree r r') ∧
  (∀ (s s' : State) (r : Rsp), s.takeResponse = some (r, s') → s = { s' with rsps := r :: s'.rsps }) ∧
  (∀ (i : Instr) (s : State), rangeInvalid i = true → ∃ t : State, exec i s = .next t ∧ t.STATE = s.STATE)

/-! ### Reset -/

/-- 70 R136: while the reset input is asserted no command is accepted and no response produced; a command in flight is
discarded without a response. The value of `STATE` afterwards is unspecified, and nothing is said of it. That responses
already produced stay is the model's choice (log entry 5). -/
def Obligations.ResetDiscardsTheCommandInFlight : Prop :=
  (∀ (s : State) (line : List ResetSample), s.resetLine = .asserted :: line →
    ∃ t : State, step s = .next t ∧ t.cmds = s.cmds ∧ t.rsps = s.rsps ∧ t.resetLine = line) ∧
  (∀ (s : State) (line : List ResetSample), s.resetLine = .assertedMidCommand :: line →
    ∃ t : State, step s = .next t ∧ t.cmds = s.cmds.tail ∧ t.rsps = s.rsps ∧ t.resetLine = line)

/-- 70 R139: before any `SEED`, from any value `x` of `STATE`, a stateful draw with valid bounds executes normally and
leaves `T(x)`; the range check, `MIX` and the integer stateless draws answer what they answer from any other value. -/
def Obligations.DrawBeforeSeedIsNoError : Prop :=
  ∀ (x y : Word) (i : Instr),
    (statefulDraw i = true → rangeInvalid i = false →
      ∃ (t : State) (d : Wide), exec i { State.reset with STATE := x } = .next t ∧ t.rsps = [okWord d] ∧
        t.STATE = transform x) ∧
    ((statefulDraw i = false ∨ rangeInvalid i = true) →
      ∃ t t' : State, exec i { State.reset with STATE := x } = .next t ∧
        exec i { State.reset with STATE := y } = .next t' ∧ t.rsps = t'.rsps)

/-! ### The transform -/

/-- 40 R56: `FOLD(w)` is the XOR of the halves of `w`. -/
def Obligations.FoldXorsTheHalves : Prop :=
  ∀ w : Wide, fold w = w.extractLsb' 32 32 ^^^ w.extractLsb' 0 32

/-- 40 R57, on natural numbers, each step at its width. -/
def Obligations.TransformByFiveSteps : Prop :=
  ∀ seed : Word,
    let s1   := (seed.toNat + 0xE120FC15) % 2 ^ 32
    let tmp  := (s1 * 0x4A39B70D) % 2 ^ 64
    let m1   := (tmp / 2 ^ 32) ^^^ (tmp % 2 ^ 32)
    let tmp2 := (m1 * 0x12FAD5C9) % 2 ^ 64
    (transform seed).toNat = (tmp2 / 2 ^ 32) ^^^ (tmp2 % 2 ^ 32)

/-- 40 R59: neither product reaches 2^64, so both may be computed as exact natural numbers; the bounds are R59's, those
on the upper halves included. -/
def Obligations.ProductsNeverOverflow : Prop :=
  ∀ s1 m1 : Word,
    s1.toNat * 0x4A39B70D ≤ 0x4A39B70CB5C648F3 ∧ m1.toNat * 0x12FAD5C9 ≤ 0x12FAD5C8ED052A37 ∧
    (s1.setWidth 64 * Params.cMul1).toNat = s1.toNat * 0x4A39B70D ∧
    (m1.setWidth 64 * Params.cMul2).toNat = m1.toNat * 0x12FAD5C9 ∧
    s1.toNat * 0x4A39B70D < 2 ^ 63 ∧ m1.toNat * 0x12FAD5C9 < 2 ^ 61 ∧
    s1.toNat * 0x4A39B70D / 2 ^ 32 ≤ 0x4A39B70C ∧ m1.toNat * 0x12FAD5C9 / 2 ^ 32 ≤ 0x12FAD5C8

/-- 40 R61 (the part that concerns single values), 90 C3, C4: two fixed points, the preimages R61 lists, and that `T` is
neither injective nor onto. -/
def Obligations.TransformIsNoPermutation : Prop :=
  transform 0x1D553BCA#32 = 0x1D553BCA#32 ∧ transform 0xF18634C3#32 = 0xF18634C3#32 ∧
  transform 0x1EDF03EB#32 = 0#32 ∧ transform 0xA7326C55#32 = 0x7FFFFFFF#32 ∧
  transform 0x1EDF03EA#32 = 0xFFFFFFFF#32 ∧ transform 0x74345940#32 = 0xFFFFFFFF#32 ∧
  transform 0xC989AE95#32 = 0xFFFFFFFF#32 ∧
  transform 0#32 = 0x1322D6D0#32 ∧ transform 1#32 = 0xDC661379#32 ∧
  ¬ Function.Injective transform ∧ ¬ Function.Surjective transform

/-- 40 R62: `MIX` returns `T(seed)`, zero-extended, and neither reads nor writes `STATE`. -/
def Obligations.MixReturnsTheTransform : Prop :=
  (∀ w : Cmd, opOf w = 0x02#8 → decode w = some (.mix (w.extractLsb' 128 32))) ∧
  (∀ (seed : Word) (s : State),
    exec (.mix seed) s = .next { s with rsps := s.rsps ++ [okWord ((transform seed).setWidth 64)] }) ∧
  ∀ s : State,
    exec (.mix 0#32) s = .next { s with rsps := s.rsps ++ [okWord 0x000000001322D6D0#64] } ∧
    exec (.mix 0x1EDF03EB#32) s = .next { s with rsps := s.rsps ++ [okWord 0#64] } ∧
    exec (.mix 0x1D553BCA#32) s = .next { s with rsps := s.rsps ++ [okWord 0x1D553BCA#64] }

/-! ### The integer converter -/

/-- 41 R71, whole: `EMOD` is the one `q` in `[0, d)` with `r - q` divisible by `d`, equals the floored remainder and the
second wording; the rejected convention `TRUNC` as R71 gives it, its range, where it is negative, and where the two
agree. -/
def Obligations.RemainderConventions : Prop :=
  Params.intRemMode = .euclid ∧
  ∀ r d : Int, 1 ≤ d →
    (∀ q : Int, remainder .euclid r d = q ↔ 0 ≤ q ∧ q < d ∧ d ∣ r - q) ∧
    remainder .euclid r d = Int.fmod r d ∧
    (0 ≤ r → remainder .euclid r d = ((r.toNat % d.toNat : Nat) : Int)) ∧
    (r < 0 → remainder .euclid r d =
      if (-r).toNat % d.toNat = 0 then 0 else d - (((-r).toNat % d.toNat : Nat) : Int)) ∧
    (0 ≤ r → remainder .trunc r d = ((r.toNat % d.toNat : Nat) : Int)) ∧
    (r < 0 → remainder .trunc r d = -(((-r).toNat % d.toNat : Nat) : Int)) ∧
    (r < 0 → -(d - 1) ≤ remainder .trunc r d ∧ remainder .trunc r d ≤ 0) ∧
    (r < 0 → ¬ d ∣ r → remainder .trunc r d < 0) ∧
    (0 ≤ r ∨ d ∣ r → remainder .trunc r d = remainder .euclid r d)

/-- 41 R69, R70, R72, R73, R74: `CONV_INT` rejects exactly `max <= min`; on every other pair the result is
`min + EMOD(NARROW(raw), max - min)`, formed exactly, and lies in `[min, max)`; the special cases of R74. -/
def Obligations.IntConversionIsContained : Prop :=
  ∀ raw lo hi : Word,
    (hi.toInt ≤ lo.toInt ↔ convInt raw lo hi = none) ∧
    (lo.toInt < hi.toInt →
      1 ≤ hi.toInt - lo.toInt ∧ hi.toInt - lo.toInt ≤ 2 ^ 32 - 1 ∧
      ∃ v : Word, convInt raw lo hi = some v ∧
        v.toInt = lo.toInt + remainderOfRaw raw (hi.toInt - lo.toInt).toNat ∧
        lo.toInt ≤ v.toInt ∧ v.toInt ≤ hi.toInt - 1 ∧
        (hi.toInt = lo.toInt + 1 → v = lo) ∧ (raw = 0#32 → v = lo) ∧
        (raw = 0xFFFFFFFF#32 → v.toInt = hi.toInt - 1))

/-- 41 R73, its example: a pair whose 32-bit difference would wrap to a negative number is valid, and one whose wrapped
difference would be positive is not. -/
def Obligations.WidestBoundsAreValid : Prop :=
  (∀ raw : Word, ∃ v, convInt raw 0x80000000#32 0x7FFFFFFF#32 = some v) ∧
  ∀ raw : Word, convInt raw 0x7FFFFFFF#32 0x80000000#32 = none

/-! ### The double converter -/

/-- 41 R76: the datum of a pattern by its sign, exponent and fraction, with R76's values as rational numbers. -/
def Obligations.PatternsHaveTheirValues : Prop :=
  ∀ d : Wide,
    let s := d.getLsbD 63
    let e := (d.extractLsb' 52 11).toNat
    let f := (d.extractLsb' 0 52).toNat
    (e = 0 → f = 0 → unpack d = .fin s 0) ∧
    (e = 0 → f ≠ 0 → ∃ m : Nat, unpack d = .fin s m ∧
      (unpack d).value = (-1) ^ s.toNat * (f : ℚ) * 2 ^ (-1074 : Int)) ∧
    (1 ≤ e → e ≤ 2046 → ∃ m : Nat, unpack d = .fin s m ∧
      (unpack d).value = (-1) ^ s.toNat * (1 + (f : ℚ) * 2 ^ (-52 : Int)) * 2 ^ ((e : Int) - 1023)) ∧
    (e = 2047 → f = 0 → unpack d = .inf s) ∧
    (e = 2047 → f ≠ 0 → unpack d = .nan)

/-- 41 R76: the pattern of a number determines it and is determined by it; exactly the patterns R81 describes are NaNs. -/
def Obligations.PatternsAndDataCorrespond : Prop :=
  (∀ d : Wide, unpack d = .nan ↔ nanPatternOk d = true) ∧
  (∀ (d : Wide) (c : BitVec 53), unpack d ≠ .nan → pack c (unpack d) = d) ∧
  (∀ (c : BitVec 53) (neg : Bool) (mag : Nat), Representable mag → mag < magLimit →
    unpack (pack c (.fin neg mag)) = .fin neg mag) ∧
  (∀ (d : Wide) (neg : Bool) (mag : Nat), unpack d = .fin neg mag → Representable mag ∧ mag < magLimit) ∧
  ∀ (c : BitVec 53) (neg : Bool), unpack (pack c (.inf neg)) = .inf neg

/-- 41 R81: the patterns a NaN response can carry are exactly the NaN patterns: the free choice leaves none out and adds
none. (That the choice is a 53-bit free value is the model's form, log entry 6.) -/
def Obligations.NanChoiceCoversTheNanPatterns : Prop :=
  ∀ d : Wide, nanPatternOk d = true ↔ ∃ c : BitVec 53, pack c .nan = d

/-- 41 R80: a rounded magnitude has at most 53 significant bits, no such magnitude is nearer to the exact fraction, and
of two equally near ones it is the one with the even last place. -/
def Obligations.RoundingIsNearestTiesToEven : Prop :=
  ∀ num den : Nat, 0 < den →
    Representable (roundMag num den) ∧
    ∀ m : Nat, Representable m →
      |(roundMag num den * den : Int) - num| ≤ |(m * den : Int) - num| ∧
      (m ≠ roundMag num den → |(roundMag num den * den : Int) - num| = |(m * den : Int) - num| →
        (roundMag num den / 2 ^ ulpShift (roundMag num den)) % 2 = 0)

/-- 41 R79, R80: each of the four operations on finite operands gives the exact result rounded once; an exact zero sum of
operands of opposite sign is `+0`. (Division is by a number that is not zero; the block never divides by zero.) -/
def Obligations.OperationsRoundTheExactResult : Prop :=
  ∀ (a b : Bool) (m n : Nat),
    RoundsTo ((Datum.fin a m).value * (Datum.fin b n).value) (fmul (.fin a m) (.fin b n)) ∧
    (0 < n → RoundsTo ((Datum.fin a m).value / (Datum.fin b n).value) (fdiv (.fin a m) (.fin b n))) ∧
    RoundsTo ((Datum.fin a m).value + (Datum.fin b n).value) (fadd (.fin a m) (.fin b n)) ∧
    RoundsTo ((Datum.fin a m).value - (Datum.fin b n).value) (fsub (.fin a m) (.fin b n)) ∧
    (a ≠ b → m = n → fadd (.fin a m) (.fin b n) = .fin false 0)

/-- 41 R79, the special operands it lists: NaN operands, infinities of like signs subtracted, zero times infinity, a
non-zero number times infinity, and the sum with `+0`. -/
def Obligations.SpecialOperandsOfArithmetic : Prop :=
  (∀ x : Datum, fadd .nan x = .nan ∧ fadd x .nan = .nan ∧ fsub .nan x = .nan ∧ fsub x .nan = .nan ∧
    fmul .nan x = .nan ∧ fmul x .nan = .nan ∧ fdiv .nan x = .nan ∧ fdiv x .nan = .nan) ∧
  (∀ a : Bool, fsub (.inf a) (.inf a) = .nan ∧ fadd (.inf a) (.inf (!a)) = .nan) ∧
  (∀ a b : Bool, fmul (.fin a 0) (.inf b) = .nan ∧ fmul (.inf b) (.fin a 0) = .nan) ∧
  (∀ (a b : Bool) (m : Nat), 0 < m → fmul (.fin a m) (.inf b) = .inf (a != b) ∧
    fmul (.inf b) (.fin a m) = .inf (a != b)) ∧
  (∀ d : Wide, unpack d ≠ .fin true 0 → fadd (unpack d) (.fin false 0) = unpack d) ∧
  fadd (.fin true 0) (.fin false 0) = .fin false 0

/-- 41 R77: `U2D` is exact and does not narrow; the divisor is the double 4294967295.0. -/
def Obligations.ConversionOfRawIsExact : Prop :=
  (∀ raw : Word, ∃ m : Nat, u2d raw = .fin false m ∧ (u2d raw).value = (raw.toNat : ℚ) ∧
    ∀ c : BitVec 53, unpack (pack c (u2d raw)) = u2d raw) ∧
  unpack 0x41EFFFFFFFE00000#64 = u2d 0xFFFFFFFF#32 ∧
  unpack 0x3FF0000000000000#64 = u2d 1#32

/-- 41 R78: which pairs of double bounds are rejected, on numbers, zeros, infinities and NaNs, with R78's examples. -/
def Obligations.DoubleBoundsRejected : Prop :=
  (∀ (raw : Word) (lo hi : Wide), convDbl raw lo hi = none ↔ fle (unpack hi) (unpack lo) = true) ∧
  (∀ x : Datum, fle .nan x = false ∧ fle x .nan = false) ∧
  (∀ (a b : Bool) (m n : Nat), fle (.fin a m) (.fin b n) = true ↔ (Datum.fin a m).value ≤ (Datum.fin b n).value) ∧
  (∀ (a : Bool) (m : Nat), fle (.fin a m) (.inf false) = true ∧ fle (.inf false) (.fin a m) = false ∧
    fle (.inf true) (.fin a m) = true ∧ fle (.fin a m) (.inf true) = false) ∧
  (∀ a b : Bool, fle (.inf a) (.inf b) = (a || !b)) ∧
  fle (unpack 0x4014000000000000#64) (unpack 0x4014000000000000#64) = true ∧
  fle (unpack 0x4008000000000000#64) (unpack 0x4024000000000000#64) = true ∧
  fle (unpack 0x0000000000000000#64) (unpack 0x8000000000000000#64) = true ∧
  fle (unpack 0x8000000000000000#64) (unpack 0x0000000000000000#64) = true ∧
  fle (unpack 0x7FF0000000000000#64) (unpack 0x7FF0000000000000#64) = true ∧
  fle (unpack 0x7FF0000000000000#64) (unpack 0x0000000000000000#64) = false ∧
  fle (unpack 0x3FF0000000000000#64) (unpack 0x7FF8000000000000#64) = false

/-- 41 R83 (a): `u` lies in the closed interval from 0.0 to 1.0, is 0.0 exactly at `raw = 0` and 1.0 exactly at
`raw = 0xFFFFFFFF`; both raw values are reachable. -/
def Obligations.UnitQuotientIsClosed : Prop :=
  (∀ raw : Word, ∃ m : Nat, fdiv (u2d raw) (u2d 0xFFFFFFFF#32) = .fin false m ∧ m ≤ unitsPerOne ∧
    (m = 0 ↔ raw = 0#32) ∧ (m = unitsPerOne ↔ raw = 0xFFFFFFFF#32)) ∧
  transform 0x1EDF03EB#32 = 0#32 ∧ transform 0x1EDF03EA#32 = 0xFFFFFFFF#32

/-- 41 R83 (b), (c): finite valid bounds whose difference does not overflow: `w > 0`, `0 <= p <= w`, `min <= result`, and
`result <= fadd(fsub(max, min), min)`. -/
def Obligations.DoubleResultIsAtLeastMin : Prop :=
  ∀ (raw : Word) (lo hi : Wide), (unpack lo).IsFinite → (unpack hi).IsFinite →
    fle (unpack hi) (unpack lo) = false → (fsub (unpack hi) (unpack lo)).IsFinite →
    ∃ w p y : Datum, w = fsub (unpack hi) (unpack lo) ∧ p = fmul (fdiv (u2d raw) (u2d 0xFFFFFFFF#32)) w ∧
      convDbl raw lo hi = some y ∧ y = fadd p (unpack lo) ∧
      fle w (.fin false 0) = false ∧ fle (.fin false 0) p = true ∧ fle p w = true ∧
      fle (unpack lo) y = true ∧ fle y (fadd w (unpack lo)) = true

/-- 41 R83 (c), the witnesses: the result can be `max`, and can exceed it by rounding. -/
def Obligations.DoubleResultCanReachAndPassMax : Prop :=
  (convDbl 0xFFFFFFFF#32 0x4000000000000000#64 0x4008000000000000#64).map (pack 0#53) = some 0x4008000000000000#64 ∧
  (convDbl 0xDC661379#32 0x4341C37937E08000#64 0x4341C37937E08001#64).map (pack 0#53) =
    some 0x4341C37937E08001#64 ∧
  (convDbl 0xFFFFFFFF#32 0xBFB999999999999A#64 0x3FC999999999999A#64).map (pack 0#53) =
    some 0x3FC999999999999B#64 ∧
  fle (unpack 0x3FC999999999999B#64) (unpack 0x3FC999999999999A#64) = false

/-- 41 R83 (d), (e), (f): an overflowing difference, infinite bounds that are not rejected, and NaN bounds. -/
def Obligations.DoubleResultAtInfinityAndNan : Prop :=
  ∀ (raw : Word) (lo hi : Wide),
    ((unpack lo).IsFinite → fsub (unpack hi) (unpack lo) = .inf false →
      convDbl raw lo hi = some (if raw = 0#32 then .nan else .inf false)) ∧
    ((unpack lo).IsFinite → unpack hi = .inf false →
      convDbl raw lo hi = some (if raw = 0#32 then .nan else .inf false)) ∧
    (unpack lo = .inf true → (unpack hi).IsFinite ∨ unpack hi = .inf false → convDbl raw lo hi = some .nan) ∧
    (unpack lo = .nan ∨ unpack hi = .nan → convDbl raw lo hi = some .nan)

/-! ### The commands that touch `STATE` -/

/-- 42 R91: `SEED` loads its operand without applying `T`, answers `OK` with zero data, and discards the old value. -/
def Obligations.SeedLoadsSTATE : Prop :=
  (∀ w : Cmd, opOf w = 0x01#8 → decode w = some (.seed (w.extractLsb' 128 32))) ∧
  (∀ (v : Word) (s : State), exec (.seed v) s = .next { s with STATE := v, rsps := s.rsps ++ [okWord 0#64] }) ∧
  (∀ (v x : Word) (s : State), exec (.seed v) { s with STATE := x } = exec (.seed v) s)

/-- 42 R92, with its closed form over all `raw`. -/
def Obligations.NextDrawsBelowInt32Max : Prop :=
  (∀ w : Cmd, opOf w = 0x10#8 → decode w = some .next) ∧
  ∀ s : State,
    let raw := transform s.STATE
    let v : Word :=
      if raw.toNat ≤ 0x7FFFFFFE then raw
      else if raw = 0x7FFFFFFF#32 then 0#32
      else if raw = 0x80000000#32 then 0x7FFFFFFE#32
      else raw - 0x80000001#32
    exec .next s = .next { s with STATE := raw, rsps := s.rsps ++ [okWord (v.setWidth 64)] } ∧ v.toNat ≤ 2147483646

/-- 42 R93: `NEXTM max`, its error and its value by the second wording of 41 R71; `max = 1` returns 0 and advances, and
`max = 2147483647` is `NEXT`. -/
def Obligations.NextmDrawsBelowMax : Prop :=
  (∀ w : Cmd, opOf w = 0x11#8 → decode w = some (.nextm (w.extractLsb' 0 32))) ∧
  ∀ (hi : Word) (s : State),
    (hi.toInt ≤ 0 → exec (.nextm hi) s = .next { s with rsps := s.rsps ++ [invalidRangeWord] }) ∧
    (0 < hi.toInt → ∃ v : Word, v.toInt = remainderOfRaw (transform s.STATE) hi.toNat ∧ v.toInt < hi.toInt ∧
      exec (.nextm hi) s =
        .next { s with STATE := transform s.STATE, rsps := s.rsps ++ [okWord (v.setWidth 64)] }) ∧
    exec (.nextm 1#32) s = .next { s with STATE := transform s.STATE, rsps := s.rsps ++ [okWord 0#64] } ∧
    exec (.nextm 0x7FFFFFFF#32) s = exec .next s

/-- 42 R94: `NEXTR min, max`, its error and its value; `max = min + 1` returns `min`, and `min = 0` is `NEXTM max`. -/
def Obligations.NextrDrawsInRange : Prop :=
  (∀ w : Cmd, opOf w = 0x12#8 → decode w = some (.nextr (w.extractLsb' 64 32) (w.extractLsb' 0 32))) ∧
  ∀ (lo hi : Word) (s : State),
    (hi.toInt ≤ lo.toInt → exec (.nextr lo hi) s = .next { s with rsps := s.rsps ++ [invalidRangeWord] }) ∧
    (lo.toInt < hi.toInt → ∃ v : Word,
      v.toInt = lo.toInt + remainderOfRaw (transform s.STATE) (hi.toInt - lo.toInt).toNat ∧
      lo.toInt ≤ v.toInt ∧ v.toInt < hi.toInt ∧ (hi.toInt = lo.toInt + 1 → v = lo) ∧
      exec (.nextr lo hi) s =
        .next { s with STATE := transform s.STATE, rsps := s.rsps ++ [okWord (v.setWidth 64)] }) ∧
    exec (.nextr 0#32 hi) s = exec (.nextm hi) s

/-- 42 R95: `NEXTB` is `NEXT`'s draw, and its data is the low byte of the value `NEXT` returns, not of `raw`. -/
def Obligations.NextbReturnsTheLowByte : Prop :=
  (∀ w : Cmd, opOf w = 0x13#8 → decode w = some .nextb) ∧
  (∀ s : State, ∃ v : Word,
    exec .next s = .next { s with STATE := transform s.STATE, rsps := s.rsps ++ [okWord (v.setWidth 64)] } ∧
    exec .nextb s = .next { s with STATE := transform s.STATE,
                                   rsps := s.rsps ++ [okWord (BitVec.ofNat 64 (v.toNat % 256))] }) ∧
  (∀ s : State, s.STATE = 1#32 →
    exec .nextb s = .next { s with STATE := 0xDC661379#32, rsps := s.rsps ++ [okWord 0x78#64] }) ∧
  ∀ s : State, s.STATE = 0xA7326C55#32 →
    exec .nextb s = .next { s with STATE := 0x7FFFFFFF#32, rsps := s.rsps ++ [okWord 0x00#64] }

/-- 42 R96, 41 R83 (g): `NEXTD` returns exactly `fdiv(U2D(raw), 4294967295.0)`, a finite number from 0.0 to 1.0, never
subnormal, `+0.0` exactly at `raw = 0` and 1.0 exactly at `raw = 0xFFFFFFFF`. -/
def Obligations.NextdReturnsTheUnitQuotient : Prop :=
  (∀ w : Cmd, opOf w = 0x18#8 → decode w = some .nextd) ∧
  ∀ s : State, ∃ m : Nat,
    fdiv (u2d (transform s.STATE)) (u2d 0xFFFFFFFF#32) = .fin false m ∧
    (∀ c : BitVec 53, exec .nextd s =
      .next { s with STATE := transform s.STATE, rsps := s.rsps ++ [okWord (pack c (.fin false m))] }) ∧
    m ≤ unitsPerOne ∧ (m = unitsPerOne ↔ transform s.STATE = 0xFFFFFFFF#32) ∧ (m = 0 ↔ transform s.STATE = 0#32) ∧
    (m ≠ 0 → 2 ^ 52 ≤ m)

/-- 42 R97: `NEXTDM max`: rejected when `max <= 0.0`; a NaN `max` advances `STATE` and gives some NaN; a positive finite
`max` gives `fmul(u, max)`; `+inf` gives `+inf`, or some NaN at `raw = 0`. -/
def Obligations.NextdmDrawsUpToMax : Prop :=
  (∀ w : Cmd, opOf w = 0x19#8 → decode w = some (.nextdm (w.extractLsb' 0 64))) ∧
  ∀ (hi : Wide) (s : State),
    (fle (unpack hi) (.fin false 0) = true →
      exec (.nextdm hi) s = .next { s with rsps := s.rsps ++ [invalidRangeWord] }) ∧
    (unpack hi = .nan → ∃ d : Wide, nanPatternOk d = true ∧ exec (.nextdm hi) s = .next
      { s with STATE := transform s.STATE, rsps := s.rsps ++ [okWord d], nanDraws := s.nanDraws + 1 }) ∧
    (∀ m : Nat, unpack hi = .fin false m → 0 < m → ∀ c : BitVec 53, exec (.nextdm hi) s = .next
      { s with STATE := transform s.STATE,
               rsps := s.rsps ++
                 [okWord (pack c (fmul (fdiv (u2d (transform s.STATE)) (u2d 0xFFFFFFFF#32)) (unpack hi)))] }) ∧
    (unpack hi = .inf false → transform s.STATE ≠ 0#32 → exec (.nextdm hi) s = .next
      { s with STATE := transform s.STATE, rsps := s.rsps ++ [okWord 0x7FF0000000000000#64] }) ∧
    (unpack hi = .inf false → transform s.STATE = 0#32 → ∃ d : Wide, nanPatternOk d = true ∧
      exec (.nextdm hi) s = .next
        { s with STATE := transform s.STATE, rsps := s.rsps ++ [okWord d], nanDraws := s.nanDraws + 1 })

/-- 42 R98, 41 R82: `NEXTDR min, max`: rejected when `max <= min`; otherwise LR's formula, each operation in its order,
and `STATE` advances whatever the result is; a NaN result is some NaN pattern. -/
def Obligations.NextdrDrawsByTheFormula : Prop :=
  (∀ w : Cmd, opOf w = 0x1A#8 → decode w = some (.nextdr (w.extractLsb' 64 64) (w.extractLsb' 0 64))) ∧
  ∀ (lo hi : Wide) (s : State),
    (fle (unpack hi) (unpack lo) = true →
      exec (.nextdr lo hi) s = .next { s with rsps := s.rsps ++ [invalidRangeWord] }) ∧
    (fle (unpack hi) (unpack lo) = false →
      let u := fdiv (u2d (transform s.STATE)) (u2d 0xFFFFFFFF#32)
      let y := fadd (fmul u (fsub (unpack hi) (unpack lo))) (unpack lo)
      (y ≠ .nan → ∀ c : BitVec 53, exec (.nextdr lo hi) s = .next
        { s with STATE := transform s.STATE, rsps := s.rsps ++ [okWord (pack c y)] }) ∧
      (y = .nan → ∃ d : Wide, nanPatternOk d = true ∧ exec (.nextdr lo hi) s = .next
        { s with STATE := transform s.STATE, rsps := s.rsps ++ [okWord d], nanDraws := s.nanDraws + 1 }))

/-! ### The stateless commands -/

/-- 43 R106 to R109: the stateless integer draws: `raw = T(seed)`, `STATE` neither read nor written, the error and the
value as in the stateful forms; `SNEXT` and `SNEXTM` are `SNEXTR` with the default bounds. -/
def Obligations.StatelessIntegerDraws : Prop :=
  (∀ w : Cmd, opOf w = 0x30#8 → decode w = some (.snext (w.extractLsb' 128 32))) ∧
  (∀ w : Cmd, opOf w = 0x31#8 → decode w = some (.snextm (w.extractLsb' 128 32) (w.extractLsb' 0 32))) ∧
  (∀ w : Cmd, opOf w = 0x32#8 →
    decode w = some (.snextr (w.extractLsb' 128 32) (w.extractLsb' 64 32) (w.extractLsb' 0 32))) ∧
  ∀ (seed lo hi : Word) (s : State),
    (hi.toInt ≤ lo.toInt → exec (.snextr seed lo hi) s = .next { s with rsps := s.rsps ++ [invalidRangeWord] }) ∧
    (lo.toInt < hi.toInt → ∃ v : Word,
      v.toInt = lo.toInt + remainderOfRaw (transform seed) (hi.toInt - lo.toInt).toNat ∧
      lo.toInt ≤ v.toInt ∧ v.toInt < hi.toInt ∧
      exec (.snextr seed lo hi) s = .next { s with rsps := s.rsps ++ [okWord (v.setWidth 64)] }) ∧
    (hi.toInt ≤ 0 → exec (.snextm seed hi) s = .next { s with rsps := s.rsps ++ [invalidRangeWord] }) ∧
    (0 < hi.toInt → ∃ v : Word, v.toInt = remainderOfRaw (transform seed) hi.toNat ∧
      exec (.snextm seed hi) s = .next { s with rsps := s.rsps ++ [okWord (v.setWidth 64)] }) ∧
    (∃ v : Word, v.toInt = remainderOfRaw (transform seed) 2147483647 ∧
      exec (.snext seed) s = .next { s with rsps := s.rsps ++ [okWord (v.setWidth 64)] }) ∧
    exec (.snext seed) s = exec (.snextr seed 0#32 0x7FFFFFFF#32) s ∧
    exec (.snextm seed hi) s = exec (.snextr seed 0#32 hi) s

/-- 43 R106, R110 to R112: the stateless double draws, by the formula of 41 R82; `SNEXTD` and `SNEXTDM` are `SNEXTDR`
with the default bounds, and `SNEXTD` is `fdiv(U2D(raw), 4294967295.0)`. -/
def Obligations.StatelessDoubleDraws : Prop :=
  (∀ w : Cmd, opOf w = 0x38#8 → decode w = some (.snextd (w.extractLsb' 128 32))) ∧
  (∀ w : Cmd, opOf w = 0x39#8 → decode w = some (.snextdm (w.extractLsb' 128 32) (w.extractLsb' 0 64))) ∧
  (∀ w : Cmd, opOf w = 0x3A#8 →
    decode w = some (.snextdr (w.extractLsb' 128 32) (w.extractLsb' 64 64) (w.extractLsb' 0 64))) ∧
  ∀ (seed : Word) (lo hi : Wide) (s : State),
    (fle (unpack hi) (unpack lo) = true →
      exec (.snextdr seed lo hi) s = .next { s with rsps := s.rsps ++ [invalidRangeWord] }) ∧
    (fle (unpack hi) (unpack lo) = false →
      let u := fdiv (u2d (transform seed)) (u2d 0xFFFFFFFF#32)
      let y := fadd (fmul u (fsub (unpack hi) (unpack lo))) (unpack lo)
      (y ≠ .nan → ∀ c : BitVec 53,
        exec (.snextdr seed lo hi) s = .next { s with rsps := s.rsps ++ [okWord (pack c y)] }) ∧
      (y = .nan → ∃ d : Wide, nanPatternOk d = true ∧
        exec (.snextdr seed lo hi) s =
          .next { s with rsps := s.rsps ++ [okWord d], nanDraws := s.nanDraws + 1 })) ∧
    (∀ c : BitVec 53, exec (.snextd seed) s =
      .next { s with rsps := s.rsps ++ [okWord (pack c (fdiv (u2d (transform seed)) (u2d 0xFFFFFFFF#32)))] }) ∧
    (∃ t : State, exec (.snextdm seed hi) s = .next t) ∧
    exec (.snextd seed) s = exec (.snextdr seed 0x0000000000000000#64 0x3FF0000000000000#64) s ∧
    exec (.snextdm seed hi) s = exec (.snextdr seed 0x0000000000000000#64 hi) s

/-- 43 R113: a stateless draw responds as the stateful one does right after `SEED` of its seed (errors included, NaNs
equal as NaNs); the stateful pair leaves `T(seed)`, or `seed` on an error, the stateless command leaves `STATE` alone;
`MIX s` returns the value `STATE` holds after `SEED s` and any one successful stateful draw. -/
def Obligations.StatelessEqualsSeededStateful : Prop :=
  ∀ (seed : Word) (s : State),
    (∀ i j : Instr,
      ((i = .next ∧ j = .snext seed) ∨
       (∃ hi, i = .nextm hi ∧ j = .snextm seed hi) ∨ (∃ lo hi, i = .nextr lo hi ∧ j = .snextr seed lo hi) ∨
       (i = .nextd ∧ j = .snextd seed) ∨
       (∃ hi, i = .nextdm hi ∧ j = .snextdm seed hi) ∨ (∃ lo hi, i = .nextdr lo hi ∧ j = .snextdr seed lo hi)) →
      ∃ (t u : State) (r r' : Rsp),
        execAll [.seed seed, i] s = .next t ∧ t.rsps = s.rsps ++ [okWord 0#64, r] ∧
        exec j s = .next u ∧ u.rsps = s.rsps ++ [r'] ∧ rspAgree r r' ∧
        u.STATE = s.STATE ∧ t.STATE = if rangeInvalid i then seed else transform seed) ∧
    ∀ i : Instr, statefulDraw i = true → rangeInvalid i = false →
      ∃ t u : State, execAll [.seed seed, i] s = .next t ∧ exec (.mix seed) s = .next u ∧
        u.rsps = s.rsps ++ [okWord (t.STATE.setWidth 64)]

/-- 43 R114: the response of `MIX` and of every stateless draw is a function of its command word (a NaN up to its
pattern), whatever state the block is in, and it leaves `STATE` alone. -/
def Obligations.StatelessCommandsArePure : Prop :=
  ∀ (i : Instr) (s s' : State), statefulDraw i = false → (∀ v, i ≠ .seed v) →
    ∃ (t t' : State) (r r' : Rsp), exec i s = .next t ∧ exec i s' = .next t' ∧
      t.rsps = s.rsps ++ [r] ∧ t'.rsps = s'.rsps ++ [r'] ∧ rspAgree r r' ∧
      t.STATE = s.STATE ∧ t'.STATE = s'.STATE

/-! ### Sequences of commands -/

/-- 42 R90: over any sequence of commands without a `SEED`, `STATE` becomes `T` applied as often as there are stateful
draws that did not fail; the bounds have no influence on it. -/
def Obligations.DrawsIterateTheTransform : Prop :=
  ∀ (is : List Instr) (s : State), (∀ v, Instr.seed v ∉ is) →
    ∃ t : State, execAll is s = .next t ∧
      t.STATE = transform^[(is.filter fun i => statefulDraw i && !rangeInvalid i).length] s.STATE

/-- 42 R99: after `SEED`, the sequence of responses and the sequence of values of `STATE` depend only on the seed and on
the words presented after it, whatever the block held before; NaN results up to their pattern. Illegal words and failed
draws are among the words. The reset input stays released: every sample left, if there is any, says so. -/
def Obligations.DeterminismAfterSeed : Prop :=
  ∀ (v : Word) (ws : List Cmd) (s s' : State), (∀ x ∈ s.resetLine, x = .released) →
    (∀ x ∈ s'.resetLine, x = .released) →
    s.cmds = encode (.seed v) :: ws → s'.cmds = encode (.seed v) :: ws →
    ∀ k : Nat, k ≤ ws.length →
      ∃ (t t' : State) (rs rs' : List Rsp),
        Host.Core.run Sys2Proof.core (k + 1) s = .next t ∧
        Host.Core.run Sys2Proof.core (k + 1) s' = .next t' ∧
        t.STATE = t'.STATE ∧ t.cmds = ws.drop k ∧ t'.cmds = ws.drop k ∧
        t.rsps = s.rsps ++ rs ∧ t'.rsps = s'.rsps ++ rs' ∧ rs.length = k + 1 ∧
        List.Forall₂ rspAgree rs rs'

/-- 42 R101, 30 R47, 60 R130: filling a buffer of `n` bytes is `n` `NEXTB`s: `n` advances, and element `k` is the byte of
the value drawn from `T^(k+1)(STATE)`; a fill of length 0 is no command at all. -/
def Obligations.ByteFillIsNDraws : Prop :=
  (∀ (t : Word) (n : Nat), assemble t .NEXTBYTES [.int n] = some (List.replicate n .nextb)) ∧
  ∀ (n : Nat) (s : State),
    execAll (List.replicate n .nextb) s = .next
      { s with STATE := transform^[n] s.STATE,
               rsps := s.rsps ++ (List.range n).map fun k =>
                 okWord (BitVec.ofNat 64 (remainderOfRaw (transform^[k + 1] s.STATE) 2147483647 % 256)) }

/-- 20 R25 (d), 30 R45: taking a response before a step or after it makes no difference to the rest. For a step under an
asserted reset input this rests on the model's choice that a reset keeps the responses already produced (log entry 5). -/
def Obligations.TakingAResponseCommutesWithAStep : Prop :=
  ∀ (s s' : State) (r : Rsp), s.takeResponse = some (r, s') →
    ∃ t t' : State, step s = .next t ∧ step s' = .next t' ∧ t.takeResponse = some (r, t')

/-- 30 R46, R47: lines of `95_test_vectors.md`, assembled. -/
def Obligations.AssembledLines : Prop :=
  ∀ t : Word,
    (assemble t .SNEXTR [.int 1, .int 5, .int 15]).map (List.map encode) =
      some [0x32_00000001_0000000000000005_000000000000000F#168] ∧
    (assemble t .NEXTR [.int (-100), .int 100]).map (List.map encode) =
      some [0x12_00000000_00000000FFFFFF9C_0000000000000064#168] ∧
    (assemble t .SEED [.hex 0xFFFFFFFF#32]).map (List.map encode) =
      some [0x01_FFFFFFFF_0000000000000000_0000000000000000#168] ∧
    (assemble t .NEXTDM [.dec false 100 (-1)]).map (List.map encode) =
      some [0x19_00000000_0000000000000000_4024000000000000#168] ∧
    (assemble t .NEXTDR [.dec true 1 (-1), .dec false 2 (-1)]).map (List.map encode) =
      some [0x1A_00000000_BFB999999999999A_3FC999999999999A#168] ∧
    assemble t .SEEDT [] = some [.seed t] ∧ assemble t .SNEXTD [] = some [.snextd t]
end

