-- ==== Sys2Proof/Laws/Round.lean ====
section
/-!
SUPPORT. The rounding of binary64 (41_range_conversion.md R80): what `roundHalfEven` and `roundMag` answer. Everything
said about the four operations rests on these.
-/

namespace Sys2Proof.Machine

/-! ### Rounding to a whole number -/

/-- The rounded quotient is off by at most half a unit. -/
theorem roundHalfEven_close (num : Nat) {den : Nat} (hd : 0 < den) :
    2 * num ≤ 2 * (roundHalfEven num den * den) + den ∧ 2 * (roundHalfEven num den * den) ≤ 2 * num + den := by
  have h := Nat.div_add_mod num den
  have hr := Nat.mod_lt num hd
  unfold roundHalfEven
  simp only
  split
  · rw [Nat.add_mul, Nat.mul_comm (num / den)]; omega
  · rw [Nat.mul_comm (num / den)]; omega

/-- No whole number is nearer to `num / den` than the rounded quotient. -/
theorem roundHalfEven_nearest (num : Nat) {den : Nat} (hd : 0 < den) (m : Nat) :
    |(roundHalfEven num den * den : Int) - num| ≤ |(m * den : Int) - num| := by
  obtain ⟨h1, h2⟩ := roundHalfEven_close num hd
  generalize roundHalfEven num den = q at *
  rcases lt_trichotomy m q with h | rfl | h
  · have : (m + 1) * den ≤ q * den := Nat.mul_le_mul_right _ h
    rw [Nat.add_mul] at this
    zify at *
    rcases abs_cases ((q * den : Int) - num) with ⟨e, hs⟩ | ⟨e, hs⟩ <;>
      rcases abs_cases ((m * den : Int) - num) with ⟨e', hs'⟩ | ⟨e', hs'⟩ <;> rw [e, e'] <;> linarith
  · rfl
  · have : (q + 1) * den ≤ m * den := Nat.mul_le_mul_right _ h
    rw [Nat.add_mul] at this
    zify at *
    rcases abs_cases ((q * den : Int) - num) with ⟨e, hs⟩ | ⟨e, hs⟩ <;>
      rcases abs_cases ((m * den : Int) - num) with ⟨e', hs'⟩ | ⟨e', hs'⟩ <;> rw [e, e'] <;> linarith

/-- A tie between two whole numbers goes to the even one. -/
theorem roundHalfEven_tie {num den m : Nat} (hd : 0 < den) (hne : m ≠ roundHalfEven num den)
    (ht : |(roundHalfEven num den * den : Int) - num| = |(m * den : Int) - num|) :
    roundHalfEven num den % 2 = 0 := by
  have h := Nat.div_add_mod num den
  have hr := Nat.mod_lt num hd
  have hcomm := Nat.mul_comm (num / den) den
  by_contra hodd
  have hcase : roundHalfEven num den = num / den + 1 ∧ den < 2 * (num % den) ∨
      roundHalfEven num den = num / den ∧ 2 * (num % den) < den := by
    by_cases hc : den < 2 * (num % den) ∨ 2 * (num % den) = den ∧ num / den % 2 = 1
    · have e : roundHalfEven num den = num / den + 1 := if_pos hc
      rw [e] at hodd ⊢
      omega
    · have e : roundHalfEven num den = num / den := if_neg hc
      rw [e] at hodd ⊢
      omega
  generalize roundHalfEven num den = q at *
  generalize num % den = r at *
  generalize num / den = p at *
  have hlt : |(q * den : Int) - num| * 2 < den := by
    rcases hcase with ⟨rfl, h1⟩ | ⟨rfl, h1⟩
    · zify at *
      rw [abs_of_nonneg] <;> linarith
    · zify at *
      rw [abs_of_nonpos] <;> linarith
  have hge : (den : Int) ≤ |(q * den : Int) - m * den| := by
    rw [← sub_mul, abs_mul, abs_of_nonneg (by positivity : (0 : Int) ≤ den)]
    have : (1 : Int) ≤ |(q : Int) - m| := Int.one_le_abs (by omega)
    nlinarith
  have htri : |(q * den : Int) - m * den| ≤ |(q * den : Int) - num| + |(m * den : Int) - num| := by
    rw [abs_sub_comm (m * den : Int) num]
    exact abs_sub_le _ _ _
  rw [← ht] at htri
  linarith

/-- An exact quotient is its own rounding. -/
theorem roundHalfEven_exact (m : Nat) {den : Nat} (hd : 0 < den) : roundHalfEven (m * den) den = m := by
  unfold roundHalfEven
  simp [Nat.mul_div_cancel _ hd, hd.ne]

/-! ### The place of the last bit -/

/-- The units have at most 53 bits above the last place. -/
theorem lt_two_pow_ulpShift (u : Nat) : u < 2 ^ (53 + ulpShift u) := by
  refine lt_of_lt_of_le Nat.lt_log2_self (Nat.pow_le_pow_right (by decide) ?_)
  unfold ulpShift; omega

/-- Above the subnormal range the leading bit is set. -/
theorem two_pow_ulpShift_le {u : Nat} (h : 0 < ulpShift u) : 2 ^ (52 + ulpShift u) ≤ u := by
  have hu : u ≠ 0 := by rintro rfl; simp [ulpShift] at h
  refine le_trans (Nat.pow_le_pow_right (by decide) ?_) (Nat.log2_self_le hu)
  unfold ulpShift at *; omega

/-- A normal magnitude determines its shift. -/
theorem ulpShift_eq {c k : Nat} (h1 : 2 ^ 52 ≤ c) (h2 : c < 2 ^ 53) : ulpShift (c * 2 ^ k) = k := by
  have hpos : c * 2 ^ k ≠ 0 := Nat.mul_ne_zero (by omega) (by positivity)
  have hlog : (c * 2 ^ k).log2 = 52 + k := by
    rw [Nat.log2_eq_iff hpos]
    constructor
    · rw [pow_add]; exact Nat.mul_le_mul_right _ h1
    · rw [show 52 + k + 1 = 53 + k by omega, pow_add]
      exact Nat.mul_lt_mul_of_pos_right h2 (by positivity)
  simp [ulpShift, hlog]

/-- A magnitude below 2^53 has no shift. -/
theorem ulpShift_small {u : Nat} (h : u < 2 ^ 53) : ulpShift u = 0 := by
  by_contra hne
  have := two_pow_ulpShift_le (Nat.pos_of_ne_zero hne)
  have h53 : 2 ^ 53 ≤ 2 ^ (52 + ulpShift u) := Nat.pow_le_pow_right (by decide) (by omega)
  omega

/-! ### Rounding to 53 bits -/

/-- The divisor of the inner rounding. -/
theorem roundMag_def (num den : Nat) :
    roundMag num den =
      roundHalfEven num (den * 2 ^ ulpShift (num / den)) * 2 ^ ulpShift (num / den) := by unfold roundMag; rfl

/-- The inner rounding has at most 53 bits, or is exactly 2^53. -/
theorem roundHalfEven_le (num : Nat) {den : Nat} (hd : 0 < den) :
    roundHalfEven num (den * 2 ^ ulpShift (num / den)) ≤ 2 ^ 53 := by
  have hlt := lt_two_pow_ulpShift (num / den)
  generalize ulpShift (num / den) = k at *
  have hnum : num < den * 2 ^ k * 2 ^ 53 := by
    have := (Nat.div_lt_iff_lt_mul hd).mp hlt
    calc num < 2 ^ (53 + k) * den := this
      _ = den * 2 ^ k * 2 ^ 53 := by rw [pow_add]; ring
  have hD : 0 < den * 2 ^ k := by positivity
  have h2 := (roundHalfEven_close num hD).2
  by_contra hgt
  have hge : 2 ^ 53 + 1 ≤ roundHalfEven num (den * 2 ^ k) := by omega
  have := Nat.mul_le_mul_right (den * 2 ^ k) hge
  nlinarith

/-- A rounded magnitude has at most 53 significant bits. -/
theorem roundMag_representable (num : Nat) {den : Nat} (hd : 0 < den) : Representable (roundMag num den) := by
  have hle := roundHalfEven_le num hd
  rw [roundMag_def]
  generalize ulpShift (num / den) = k at *
  generalize roundHalfEven num (den * 2 ^ k) = q at *
  rcases hle.lt_or_eq with h | rfl
  · exact ⟨q, k, h, rfl⟩
  · exact ⟨2 ^ 52, k + 1, by decide, by rw [pow_succ 2 k]; ring⟩

/-- No magnitude with at most 53 significant bits is nearer to `num / den` than the rounded one (R80). -/
theorem roundMag_nearest (num : Nat) {den : Nat} (hd : 0 < den) {m : Nat} (hm : Representable m) :
    |(roundMag num den * den : Int) - num| ≤ |(m * den : Int) - num| := by
  have hnear : ∀ m' : Nat, |(roundMag num den * den : Int) - num| ≤
      |(m' * 2 ^ ulpShift (num / den) * den : Int) - num| := by
    intro m'
    have h := roundHalfEven_nearest num (den := den * 2 ^ ulpShift (num / den)) (by positivity) m'
    rw [roundMag_def]
    push_cast at h ⊢
    convert h using 2 <;> ring
  obtain ⟨c, j, hc, rfl⟩ := hm
  rcases Nat.lt_or_ge j (ulpShift (num / den)) with hj | hj
  · -- `m` lies below the leading bit, which is itself at most `num / den`
    have hB := two_pow_ulpShift_le (u := num / den) (by omega)
    have hBden : 2 ^ (52 + ulpShift (num / den)) * den ≤ num :=
      le_trans (Nat.mul_le_mul_right _ hB) (Nat.div_mul_le_self num den)
    have hmB : c * 2 ^ j * den ≤ 2 ^ (52 + ulpShift (num / den)) * den := by
      refine Nat.mul_le_mul_right _ ?_
      calc c * 2 ^ j ≤ 2 ^ 53 * 2 ^ j := Nat.mul_le_mul_right _ hc.le
        _ = 2 ^ (53 + j) := (pow_add ..).symm
        _ ≤ _ := Nat.pow_le_pow_right (by decide) (by omega)
    refine le_trans (hnear (2 ^ 52)) ?_
    rw [pow_add] at hBden hmB
    zify at hBden hmB
    push_cast
    rw [abs_of_nonpos (by linarith), abs_of_nonpos (by linarith)]
    linarith
  · obtain ⟨d, rfl⟩ := Nat.exists_eq_add_of_le hj
    refine le_trans (hnear (c * 2 ^ d)) (le_of_eq ?_)
    push_cast
    congr 2
    rw [pow_add]; ring

/-- A magnitude with at most 53 significant bits is its own rounding. -/
theorem roundMag_exact {m den : Nat} (hd : 0 < den) (hm : Representable m) : roundMag (m * den) den = m := by
  have h := roundMag_nearest (m * den) hd hm
  push_cast at h
  rw [sub_self, abs_zero] at h
  have h0 := abs_eq_zero.mp (le_antisymm h (abs_nonneg _))
  have hd' : (den : Int) ≠ 0 := by exact_mod_cast hd.ne'
  have := mul_right_cancel₀ hd' (sub_eq_zero.mp h0)
  exact_mod_cast this

theorem roundMag_one {m : Nat} (hm : Representable m) : roundMag m 1 = m := by
  simpa using roundMag_exact (m := m) Nat.one_pos hm

/-- Equal fractions round alike. -/
theorem roundMag_scale (num den : Nat) {c : Nat} (hc : 0 < c) : roundMag (num * c) (den * c) = roundMag num den := by
  have hdiv : num * c / (den * c) = num / den := Nat.mul_div_mul_right _ _ hc
  rw [roundMag_def, roundMag_def, hdiv]
  congr 1
  generalize 2 ^ ulpShift (num / den) = P
  unfold roundHalfEven
  rw [show den * c * P = den * P * c by ring, Nat.mul_div_mul_right _ _ hc, Nat.mul_mod_mul_right]
  have e1 : (den * P * c < 2 * (num % (den * P) * c)) = (den * P < 2 * (num % (den * P))) := by
    rw [show 2 * (num % (den * P) * c) = 2 * (num % (den * P)) * c by ring]
    exact propext (Nat.mul_lt_mul_right hc)
  have e2 : (2 * (num % (den * P) * c) = den * P * c) = (2 * (num % (den * P)) = den * P) := by
    rw [show 2 * (num % (den * P) * c) = 2 * (num % (den * P)) * c by ring]
    exact propext (Nat.mul_left_inj hc.ne')
  simp only [e1, e2]

/-- Rounding keeps the order of fractions. -/
theorem roundMag_mono {a b c d : Nat} (hb : 0 < b) (hd : 0 < d) (h : a * d ≤ c * b) :
    roundMag a b ≤ roundMag c d := by
  rw [← roundMag_scale a b hd, ← roundMag_scale c d hb, Nat.mul_comm d b]
  have hD : 0 < b * d := Nat.mul_pos hb hd
  generalize a * d = x at *
  generalize c * b = y at *
  generalize b * d = D at *
  rcases h.eq_or_lt with rfl | hlt
  · rfl
  by_contra hgt
  rw [not_le] at hgt
  have h1 := roundMag_nearest x hD (roundMag_representable y hD)
  have h2 := roundMag_nearest y hD (roundMag_representable x hD)
  generalize roundMag x D = rx at *
  generalize roundMag y D = ry at *
  have hprod : ry * D + D ≤ rx * D := by
    have := Nat.mul_le_mul_right D hgt
    rwa [Nat.succ_mul] at this
  zify at *
  rcases abs_cases ((rx * D : Int) - x) with ⟨e1, s1⟩ | ⟨e1, s1⟩ <;>
    rcases abs_cases ((ry * D : Int) - x) with ⟨e2, s2⟩ | ⟨e2, s2⟩ <;>
    rcases abs_cases ((ry * D : Int) - y) with ⟨e3, s3⟩ | ⟨e3, s3⟩ <;>
    rcases abs_cases ((rx * D : Int) - y) with ⟨e4, s4⟩ | ⟨e4, s4⟩ <;>
    rw [e1, e2] at h1 <;> rw [e3, e4] at h2 <;> linarith

/-- A rounded magnitude stays on the same side of a representable one. -/
theorem roundMag_le {num den m : Nat} (hd : 0 < den) (hm : Representable m) (h : num ≤ m * den) :
    roundMag num den ≤ m := by
  rw [← roundMag_exact hd hm]
  exact roundMag_mono hd hd (Nat.mul_le_mul_right _ h)

theorem le_roundMag {num den m : Nat} (hd : 0 < den) (hm : Representable m) (h : m * den ≤ num) :
    m ≤ roundMag num den := by
  rw [← roundMag_exact hd hm]
  exact roundMag_mono hd hd (Nat.mul_le_mul_right _ h)

theorem representable_zero : Representable 0 := ⟨0, 0, by decide, by decide⟩

theorem representable_two_pow (k : Nat) : Representable (2 ^ k) := ⟨1, k, by decide, (Nat.one_mul _).symm⟩

theorem unitsPerOne_eq : unitsPerOne = 2 ^ 1074 := by decide +kernel
theorem magLimit_eq : magLimit = 2 ^ 2098 := by decide +kernel
theorem unitsPerOne_pos : 0 < unitsPerOne := by decide +kernel
theorem magLimit_pos : 0 < magLimit := by decide +kernel
theorem representable_unitsPerOne : Representable unitsPerOne := by
  have h := representable_two_pow 1074
  rwa [← unitsPerOne_eq] at h

/-- A number of at most 53 bits is representable. -/
theorem representable_of_lt {c : Nat} (h : c < 2^53) : Representable c := ⟨c, 0, h, by simp⟩

/-- A number of at most 53 bits, shifted, is representable. -/
theorem representable_mul_two_pow {c k : Nat} (h : c < 2^53) : Representable (c * 2^k) := ⟨c, k, h, rfl⟩

/-- Of two equally near magnitudes the rounded one has an even last place (R80). -/
theorem roundMag_tie (num : Nat) {den : Nat} (hd : 0 < den) {m : Nat} (hm : Representable m) (hne : m ≠ roundMag num den)
    (ht : |(roundMag num den * den : Int) - num| = |(m * den : Int) - num|) :
    roundMag num den / 2 ^ ulpShift (roundMag num den) % 2 = 0 := by
  have hk := roundMag_def num den
  have hle := roundHalfEven_le num hd
  have hk0 : 0 < ulpShift (num / den) → 2^52 ≤ roundHalfEven num (den * 2 ^ ulpShift (num / den)) := by
    intro h0
    have hB := two_pow_ulpShift_le h0
    have : 2^52 * 2^ulpShift (num/den) * den ≤ num := by
      rw [← pow_add]
      exact le_trans (Nat.mul_le_mul_right _ hB) (Nat.div_mul_le_self num den)
    have hr := le_roundMag (m := 2^52 * 2^ulpShift (num/den)) hd ⟨2^52, _, by decide, rfl⟩ this
    rw [hk] at hr
    exact Nat.le_of_mul_le_mul_right hr (by positivity)
  -- the tie is between multiples of the last place
  by_cases hq : roundHalfEven num (den * 2 ^ ulpShift (num / den)) = 2^53
  · rw [hk, hq]
    have : 2^53 * 2^ulpShift (num/den) = 2^52 * 2^(ulpShift (num/den) + 1) := by rw [pow_succ 2 (ulpShift _)]; ring
    rw [this, ulpShift_eq (by decide) (by decide), Nat.mul_div_cancel _ (by positivity)]
    norm_num
  have hq' : roundHalfEven num (den * 2 ^ ulpShift (num / den)) < 2^53 := lt_of_le_of_ne hle hq
  have hsh : ulpShift (roundMag num den) = ulpShift (num/den) := by
    rw [hk]
    rcases Nat.eq_zero_or_pos (ulpShift (num/den)) with h0 | h0
    · rw [h0] at hq' ⊢; rw [pow_zero, Nat.mul_one]; exact ulpShift_small hq'
    · exact ulpShift_eq (hk0 h0) hq'
  rw [hsh, hk, Nat.mul_div_cancel _ (by positivity)]
  -- find a grid point at the same distance
  obtain ⟨c, j, hc, rfl⟩ := hm
  rcases Nat.lt_or_ge j (ulpShift (num / den)) with hj | hj
  · -- m < 2^(52+k) ≤ num/den: then the grid point 2^52 is nearer than m: contradiction unless equal
    exfalso
    have h0 : 0 < ulpShift (num/den) := by omega
    have hB := two_pow_ulpShift_le h0
    have hBden : 2 ^ (52 + ulpShift (num / den)) * den ≤ num :=
      le_trans (Nat.mul_le_mul_right _ hB) (Nat.div_mul_le_self num den)
    have hmB : c * 2 ^ j < 2 ^ (52 + ulpShift (num / den)) := by
      calc c * 2 ^ j < 2 ^ 53 * 2 ^ j := Nat.mul_lt_mul_of_pos_right hc (by positivity)
        _ = 2 ^ (53 + j) := (pow_add ..).symm
        _ ≤ _ := Nat.pow_le_pow_right (by decide) (by omega)
    have hmBd := Nat.mul_lt_mul_of_pos_right hmB hd
    have hn := roundMag_nearest num hd (representable_two_pow (52 + ulpShift (num / den)))
    rw [ht] at hn
    generalize 2 ^ (52 + ulpShift (num / den)) = B at *
    zify at hmBd hBden
    rw [abs_of_nonpos (by push_cast; linarith), abs_of_nonpos (by linarith)] at hn
    push_cast at hn; linarith
  · obtain ⟨d, rfl⟩ := Nat.exists_eq_add_of_le hj
    have e : c * 2^(ulpShift (num/den) + d) = c * 2^d * 2^ulpShift (num/den) := by rw [pow_add]; ring
    rw [e, hk] at hne ht
    generalize ulpShift (num/den) = k at *
    refine roundHalfEven_tie (m := c * 2^d) (by positivity) (fun h => hne (by rw [h])) ?_
    push_cast at ht ⊢
    convert ht using 2 <;> ring

end Sys2Proof.Machine
end

