-- ==== Sys2Proof/Laws/Pattern.lean ====
section
/-!
SUPPORT. Patterns and data (41_range_conversion.md R76, R81): `unpack`, `pack` and the NaN patterns, by the three fields of
a pattern as numbers.
-/

namespace Sys2Proof.Machine

/-- The exponent field, as a number (R76). -/
theorem toNat_exponent (d : Wide) : (d.extractLsb' 52 11).toNat = d.toNat / 2^52 % 2^11 := by
  rw [BitVec.extractLsb'_toNat, Nat.shiftRight_eq_div_pow]

/-- The fraction field, as a number (R76). -/
theorem toNat_fraction (d : Wide) : (d.extractLsb' 0 52).toNat = d.toNat % 2^52 := by
  rw [BitVec.extractLsb'_toNat, Nat.shiftRight_zero]

/-- The sign bit, as a comparison. -/
theorem sign_eq (d : Wide) : d.getLsbD 63 = decide (2^63 ≤ d.toNat) := by
  rw [BitVec.getLsbD, Nat.testBit_eq_decide_div_mod_eq]
  have := d.isLt
  congr 1; apply propext; omega

/-- The datum of a pattern, by its three fields as numbers (R76). -/
theorem unpack_of_fields {d : Wide} {neg : Bool} {e f : Nat} (h : d.toNat = neg.toNat * 2^63 + e * 2^52 + f) (he : e < 2048) (hf : f < 2^52) :
    unpack d = if e = 2047 then (if f = 0 then .inf neg else .nan) else if e = 0 then .fin neg f else .fin neg ((2^52 + f) * 2^(e-1)) := by
  have e1 : (d.extractLsb' 52 11).toNat = e := by rw [toNat_exponent, h]; cases neg <;> simp <;> omega
  have e2 : (d.extractLsb' 0 52).toNat = f := by rw [toNat_fraction, h]; cases neg <;> simp <;> omega
  have e3 : d.getLsbD 63 = neg := by rw [sign_eq, h]; cases neg <;> simp <;> omega
  unfold unpack
  simp only [e1, e2, e3]

/-- Every pattern is its three fields. -/
theorem exists_fields (d : Wide) : ∃ (neg : Bool) (e f : Nat), d.toNat = neg.toNat * 2^63 + e * 2^52 + f ∧ e < 2048 ∧ f < 2^52 := by
  have := d.isLt
  refine ⟨decide (2^63 ≤ d.toNat), d.toNat / 2^52 % 2^11, d.toNat % 2^52, ?_, by omega, by omega⟩
  by_cases h : 2^63 ≤ d.toNat
  · simp only [h, decide_true, Bool.toNat_true]; omega
  · simp only [h, decide_false, Bool.toNat_false]; omega

/-- The NaN patterns, by their fields (R81). -/
theorem nanPatternOk_of_fields {d : Wide} {neg : Bool} {e f : Nat} (h : d.toNat = neg.toNat * 2^63 + e * 2^52 + f) (he : e < 2048) (hf : f < 2^52) :
    nanPatternOk d = true ↔ e = 2047 ∧ f ≠ 0 := by
  have e1 : (d.extractLsb' 52 11).toNat = e := by rw [toNat_exponent, h]; cases neg <;> simp <;> omega
  have e2 : (d.extractLsb' 0 52).toNat = f := by rw [toNat_fraction, h]; cases neg <;> simp <;> omega
  unfold nanPatternOk
  simp only [Bool.and_eq_true, beq_iff_eq, bne_iff_ne, ← BitVec.toNat_inj, ne_eq, e1, e2]
  rfl

/-- The pattern of a finite datum: the sign above bits 62:0. -/
theorem toNat_pack_fin (c : BitVec 53) (neg : Bool) (mag : Nat) : (pack c (.fin neg mag)).toNat = neg.toNat * 2^63 + (packMag mag).toNat := by
  show (BitVec.ofBool neg ++ packMag mag : BitVec (1+63)).toNat = _
  rw [BitVec.toNat_append, ← Nat.shiftLeft_add_eq_or_of_lt (packMag mag).isLt, Nat.shiftLeft_eq]
  cases neg <;> rfl

/-- The pattern of an infinity. -/
theorem toNat_pack_inf (c : BitVec 53) (neg : Bool) : (pack c (.inf neg)).toNat = neg.toNat * 2^63 + 2047 * 2^52 + 0 := by
  cases neg <;> rfl

/-- Bits 62:0 of a finite pattern, when they fit. -/
theorem toNat_packMag (mag : Nat) (h : ulpShift mag * 2 ^ 52 + mag / 2 ^ ulpShift mag < 2^63) : (packMag mag).toNat = ulpShift mag * 2 ^ 52 + mag / 2 ^ ulpShift mag := by
  unfold packMag
  rw [BitVec.toNat_ofNat, Nat.mod_eq_of_lt h]

/-- Below 2^53 units the bits are the magnitude itself. -/
theorem toNat_packMag_subnormal {m : Nat} (h : m < 2^53) : (packMag m).toNat = m := by
  have := ulpShift_small h
  rw [toNat_packMag] <;> rw [this] <;> omega

/-- A normal magnitude packs to its exponent and fraction. -/
theorem toNat_packMag_normal {f e : Nat} (he : 1 ≤ e) (he2 : e < 2047) (hf : f < 2^52) : (packMag ((2^52+f) * 2^(e-1))).toNat = e * 2^52 + f := by
  have h := ulpShift_eq (c := 2^52+f) (k := e-1) (by omega) (by omega)
  have h2 : (2^52+f) * 2^(e-1) / 2^(e-1) = 2^52+f := Nat.mul_div_cancel _ (by positivity)
  rw [toNat_packMag] <;> rw [h, h2] <;> omega

/-- A representable magnitude below the overflow limit is subnormal or normal (R76). -/
theorem representable_cases {mag : Nat} (h : Representable mag) (hl : mag < magLimit) :
    (∃ f, f < 2^52 ∧ mag = f) ∨ (∃ e f, 1 ≤ e ∧ e < 2047 ∧ f < 2^52 ∧ mag = (2^52+f) * 2^(e-1)) := by
  by_cases hs : mag < 2^52
  · exact .inl ⟨mag, hs, rfl⟩
  right
  obtain ⟨c, k, hc, rfl⟩ := h
  -- normalise
  have hlo : 2^(52 + ulpShift (c * 2^k)) ≤ c * 2^k := by
    rcases Nat.eq_zero_or_pos (ulpShift (c*2^k)) with h0 | h0
    · rw [h0]; simpa using hs
    · exact two_pow_ulpShift_le h0
  have hhi := lt_two_pow_ulpShift (c * 2^k)
  generalize hj : ulpShift (c * 2^k) = j at hlo hhi
  -- c*2^k = g * 2^j
  have hdiv : 2^j ∣ c * 2^k := by
    rcases Nat.lt_or_ge k j with hkj | hkj
    · exfalso
      have : c * 2^k < 2^53 * 2^k := Nat.mul_lt_mul_of_pos_right hc (by positivity)
      have h2 : 2^53 * 2^k ≤ 2^(52+j) := by rw [← pow_add]; exact Nat.pow_le_pow_right (by decide) (by omega)
      omega
    · exact Dvd.dvd.mul_left (pow_dvd_pow 2 hkj) c
  obtain ⟨g, hg⟩ := hdiv
  rw [hg] at hlo hhi hl ⊢
  have hg1 : 2^52 ≤ g := by
    rw [pow_add, Nat.mul_comm] at hlo; exact Nat.le_of_mul_le_mul_left hlo (by positivity)
  have hg2 : g < 2^53 := by
    rw [pow_add, Nat.mul_comm (2^53)] at hhi; exact Nat.lt_of_mul_lt_mul_left hhi
  refine ⟨j + 1, g - 2^52, by omega, ?_, by omega, ?_⟩
  · rw [magLimit_eq] at hl
    have h2 := (Nat.pow_lt_pow_iff_right (by decide : 1 < 2)).mp (lt_of_le_of_lt hlo hl)
    omega
  · rw [Nat.add_sub_cancel, Nat.add_sub_cancel' hg1, Nat.mul_comm]

/-- A subnormal magnitude is representable. -/
theorem representable_subnormal {f : Nat} (h : f < 2^52) : Representable f ∧ f < magLimit := ⟨⟨f, 0, by omega, by simp⟩, by
  rw [magLimit_eq]; exact lt_of_lt_of_le h (Nat.pow_le_pow_right (by decide) (by decide))⟩

/-- A normal magnitude is representable. -/
theorem representable_normal {e f : Nat} (he2 : e < 2047) (hf : f < 2^52) : Representable ((2^52+f) * 2^(e-1)) ∧ (2^52+f) * 2^(e-1) < magLimit := by
  refine ⟨⟨2^52+f, e-1, by omega, rfl⟩, ?_⟩
  rw [magLimit_eq]
  calc (2^52+f) * 2^(e-1) < 2^53 * 2^(e-1) := Nat.mul_lt_mul_of_pos_right (by omega) (by positivity)
    _ = 2^(53+(e-1)) := by rw [pow_add]
    _ ≤ _ := Nat.pow_le_pow_right (by decide) (by omega)

/-- The magnitude of a finite pattern is a binary64 magnitude. -/
theorem representable_of_unpack {d : Wide} {neg : Bool} {mag : Nat} (h : unpack d = .fin neg mag) :
    Representable mag ∧ mag < magLimit := by
  obtain ⟨neg', e, f, h', he, hf⟩ := exists_fields d
  rw [unpack_of_fields h' he hf] at h
  split at h
  · split at h <;> cases h
  · split at h
    · cases h; exact representable_subnormal hf
    · cases h; exact representable_normal (by omega) hf

/-- The exponent field of a pattern written as a concatenation. -/
theorem extract_exponent (s : BitVec 1) (e : BitVec 11) (f : BitVec 52) : (s ++ e ++ f : BitVec 64).extractLsb' 52 11 = e := by
  apply BitVec.eq_of_getLsbD_eq
  intro k hk
  simp only [BitVec.getLsbD_extractLsb', hk, decide_true, Bool.true_and]
  rw [BitVec.getLsbD_append, BitVec.getLsbD_append]
  rw [if_neg (by omega), if_pos (by omega)]
  congr 1; omega

/-- The fraction field of a pattern written as a concatenation. -/
theorem extract_fraction (s : BitVec 1) (e : BitVec 11) (f : BitVec 52) : (s ++ e ++ f : BitVec 64).extractLsb' 0 52 = f := by
  apply BitVec.eq_of_getLsbD_eq
  intro k hk
  simp only [BitVec.getLsbD_extractLsb', hk, decide_true, Bool.true_and]
  rw [BitVec.getLsbD_append]
  rw [if_pos (by omega)]
  congr 1; omega

/-- The pattern of a NaN is a NaN pattern, whichever was chosen (R81). -/
theorem nanPatternOk_pack_nan (c : BitVec 53) : nanPatternOk (pack c .nan) = true := by
  unfold nanPatternOk pack nanPattern
  simp only [extract_exponent, extract_fraction]
  split
  · decide
  · rename_i h; simpa using h

/-- Only a NaN uses the choice of a pattern. -/
theorem pack_of_ne_nan {y : Datum} (h : y ≠ .nan) (c c' : BitVec 53) : pack c y = pack c' y := by
  cases y <;> first | exact absurd rfl h | rfl

end Sys2Proof.Machine
end

