-- ==== Sys2Proof/Laws/State.lean ====
section
/-!
SUPPORT. One lemma per field and update of the state, each true by unfolding, so that no later proof unfolds a record
update.
-/

namespace Sys2Proof.Machine

variable (s : State) (e : ErrCode) (d : Wide) (v : Word) (y : Datum) (w : Cmd)

@[simp] theorem respond_STATE : (s.respond e d).STATE = s.STATE := rfl
@[simp] theorem respond_cmds : (s.respond e d).cmds = s.cmds := rfl
@[simp] theorem respond_rsps : (s.respond e d).rsps = s.rsps ++ [rspWord e d] := rfl
@[simp] theorem respond_resetLine : (s.respond e d).resetLine = s.resetLine := rfl
@[simp] theorem respond_nanDraws : (s.respond e d).nanDraws = s.nanDraws := rfl
@[simp] theorem respond_resets : (s.respond e d).resets = s.resets := rfl

@[simp] theorem respondOk_STATE : (s.respondOk d).STATE = s.STATE := rfl
@[simp] theorem respondOk_cmds : (s.respondOk d).cmds = s.cmds := rfl
@[simp] theorem respondOk_rsps : (s.respondOk d).rsps = s.rsps ++ [rspWord .ok d] := rfl
@[simp] theorem respondOk_resetLine : (s.respondOk d).resetLine = s.resetLine := rfl
@[simp] theorem respondOk_nanDraws : (s.respondOk d).nanDraws = s.nanDraws := rfl
@[simp] theorem respondOk_resets : (s.respondOk d).resets = s.resets := rfl

@[simp] theorem raise_STATE : (s.raise e).STATE = s.STATE := rfl
@[simp] theorem raise_cmds : (s.raise e).cmds = s.cmds := rfl
@[simp] theorem raise_rsps : (s.raise e).rsps = s.rsps ++ [rspWord e 0#64] := rfl
@[simp] theorem raise_resetLine : (s.raise e).resetLine = s.resetLine := rfl
@[simp] theorem raise_nanDraws : (s.raise e).nanDraws = s.nanDraws := rfl
@[simp] theorem raise_resets : (s.raise e).resets = s.resets := rfl

@[simp] theorem writeSTATE_STATE : (s.writeSTATE v).STATE = v := rfl
@[simp] theorem writeSTATE_cmds : (s.writeSTATE v).cmds = s.cmds := rfl
@[simp] theorem writeSTATE_rsps : (s.writeSTATE v).rsps = s.rsps := rfl
@[simp] theorem writeSTATE_resetLine : (s.writeSTATE v).resetLine = s.resetLine := rfl
@[simp] theorem writeSTATE_nanDraws : (s.writeSTATE v).nanDraws = s.nanDraws := rfl
@[simp] theorem writeSTATE_resets : (s.writeSTATE v).resets = s.resets := rfl

@[simp] theorem respondDatum_STATE : (s.respondDatum y).STATE = s.STATE := rfl
@[simp] theorem respondDatum_cmds : (s.respondDatum y).cmds = s.cmds := rfl
@[simp] theorem respondDatum_rsps :
    (s.respondDatum y).rsps = s.rsps ++ [rspWord .ok (pack (Config.nanOut s.nanDraws) y)] := rfl
@[simp] theorem respondDatum_resetLine : (s.respondDatum y).resetLine = s.resetLine := rfl
@[simp] theorem respondDatum_nanDraws :
    (s.respondDatum y).nanDraws = if y = .nan then s.nanDraws + 1 else s.nanDraws := rfl
@[simp] theorem respondDatum_resets : (s.respondDatum y).resets = s.resets := rfl

@[simp] theorem resetBlock_STATE (c : Option Cmd) : (s.resetBlock c).STATE = Config.stateReset s.resets s.STATE c := rfl
@[simp] theorem resetBlock_cmds (c : Option Cmd) : (s.resetBlock c).cmds = s.cmds := rfl
@[simp] theorem resetBlock_rsps (c : Option Cmd) : (s.resetBlock c).rsps = s.rsps := rfl
@[simp] theorem resetBlock_resetLine (c : Option Cmd) : (s.resetBlock c).resetLine = s.resetLine := rfl
@[simp] theorem resetBlock_nanDraws (c : Option Cmd) : (s.resetBlock c).nanDraws = s.nanDraws := rfl
@[simp] theorem resetBlock_resets (c : Option Cmd) : (s.resetBlock c).resets = s.resets + 1 := rfl

@[simp] theorem present_STATE : (s.present w).STATE = s.STATE := rfl
@[simp] theorem present_cmds : (s.present w).cmds = s.cmds ++ [w] := rfl
@[simp] theorem present_rsps : (s.present w).rsps = s.rsps := rfl
@[simp] theorem present_resetLine : (s.present w).resetLine = s.resetLine := rfl
@[simp] theorem present_nanDraws : (s.present w).nanDraws = s.nanDraws := rfl
@[simp] theorem present_resets : (s.present w).resets = s.resets := rfl

end Sys2Proof.Machine
end

