-- ==== Sys2Proof/Laws/Words.lean ====
section
/-!
SUPPORT. The fields of the command word and of the response word: each field reads back what was packed.
-/

namespace Sys2Proof

variable (op : BitVec 8) (s : Word) (a b : Wide)

/-- The bits of a packed command word, field by field (30_encoding.md R35). -/
theorem getLsbD_packCmd (i : Nat) :
    (packCmd op s a b).getLsbD i =
      if i < 64 then b.getLsbD i
      else if i < 128 then a.getLsbD (i - 64)
      else if i < 160 then s.getLsbD (i - 128)
      else op.getLsbD (i - 160) := by
  have h : (packCmd op s a b).getLsbD i = (op ++ s ++ a ++ b : BitVec (8 + 32 + 64 + 64)).getLsbD i := rfl
  rw [h]
  simp only [BitVec.getLsbD_append]
  by_cases h1 : i < 64
  · simp only [h1, if_true]
  · by_cases h2 : i < 128
    · simp only [h1, h2, show i - 64 < 64 by omega, if_true, if_false]
    · by_cases h3 : i < 160
      · simp only [h1, h2, h3, show ¬i - 64 < 64 by omega, show i - 128 < 32 by omega, if_true, if_false,
          show i - 64 - 64 = i - 128 by omega]
      · simp only [h1, h2, h3, show ¬i - 64 < 64 by omega, show ¬i - 64 - 64 < 32 by omega, if_false,
          show i - 64 - 64 - 32 = i - 160 by omega]

@[simp] theorem opOf_packCmd : opOf (packCmd op s a b) = op := by
  ext i hi
  simp [opOf, getLsbD_packCmd, hi, show ¬160 + i < 64 by omega, show ¬160 + i < 128 by omega]

@[simp] theorem seedOf_packCmd : seedOf (packCmd op s a b) = s := by
  ext i hi
  simp [seedOf, getLsbD_packCmd, hi, show ¬128 + i < 64 by omega, show 128 + i < 160 by omega]

@[simp] theorem aOf_packCmd : aOf (packCmd op s a b) = a := by
  ext i hi
  simp [aOf, getLsbD_packCmd, hi, show 64 + i < 128 by omega]

@[simp] theorem bOf_packCmd : bOf (packCmd op s a b) = b := by
  ext i hi
  simp [bOf, getLsbD_packCmd, hi]

@[simp] theorem low_intField (v : Word) : (intField v).extractLsb' 0 32 = v := by
  ext i hi
  simp [intField, hi]
  omega

@[simp] theorem aIntOf_packCmd (v : Word) : aIntOf (packCmd op s (intField v) b) = v := by
  simp [aIntOf]

@[simp] theorem bIntOf_packCmd (v : Word) : bIntOf (packCmd op s a (intField v)) = v := by
  simp [bIntOf]

namespace Machine

variable (e : ErrCode) (d : Wide)

/-- The bits of a response word: `data` below `err` (30_encoding.md R43). -/
theorem getLsbD_rspWord (i : Nat) :
    (rspWord e d).getLsbD i = if i < 64 then d.getLsbD i else e.code.getLsbD (i - 64) := by
  have h : (rspWord e d).getLsbD i = (e.code ++ d : BitVec (2 + 64)).getLsbD i := rfl
  rw [h, BitVec.getLsbD_append]

@[simp] theorem rspErr_rspWord : rspErr (rspWord e d) = e.code := by
  ext i hi
  simp [rspErr, getLsbD_rspWord, hi]

@[simp] theorem rspData_rspWord : rspData (rspWord e d) = d := by
  ext i hi
  simp [rspData, getLsbD_rspWord, hi]

@[simp] theorem rspWord_ok : rspWord .ok d = okWord d := rfl
@[simp] theorem rspWord_invalidRange : rspWord .invalidRange 0#64 = invalidRangeWord := rfl
@[simp] theorem rspWord_illegalOp : rspWord .illegalOp 0#64 = illegalOpWord := rfl

@[simp] theorem rspLegal_okWord : rspLegal (okWord d) = true := by
  have h : (okWord d).extractLsb' 64 2 = 0#2 := rspErr_rspWord .ok d
  simp [rspLegal, h]

@[simp] theorem rspLegal_invalidRangeWord : rspLegal invalidRangeWord = true := by decide
@[simp] theorem rspLegal_illegalOpWord : rspLegal illegalOpWord = true := by decide

/-- A completed command's response determines its data. -/
theorem okWord_injective {d d' : Wide} (h : okWord d = okWord d') : d = d' := by
  have := congrArg rspData h
  rwa [← rspWord_ok, ← rspWord_ok, rspData_rspWord, rspData_rspWord] at this

end Machine

end Sys2Proof
end

