-- ==== Sys2Proof/Laws/Ops.lean ====
section
/-!
SUPPORT. What each shared operation answers, said once: the converter's test, the four kinds of draw, the ports.
-/

namespace Sys2Proof.Machine

/-! ### The converter -/

theorem intBoundsInvalid_iff {lo hi : Word} : intBoundsInvalid lo hi = true ↔ hi.toInt ≤ lo.toInt := by
  simp [intBoundsInvalid]

/-- `CONV_INT` rejects exactly the invalid pairs (41 R73). -/
theorem convInt_invalid {raw lo hi : Word} (h : hi.toInt ≤ lo.toInt) : convInt raw lo hi = none :=
  if_pos (intBoundsInvalid_iff.mpr h)

/-- `CONV_INT` on a valid pair (41 R72). -/
theorem convInt_valid {raw lo hi : Word} (h : lo.toInt < hi.toInt) :
    convInt raw lo hi =
      some (BitVec.ofInt 32 (lo.toInt + raw.toInt % (hi.toInt - lo.toInt))) :=
  if_neg (by rw [intBoundsInvalid_iff]; omega)

/-- The result of `CONV_INT` lies in `[min, max)`, so its 32-bit encoding loses nothing (41 R74). -/
theorem convInt_toInt {raw lo hi : Word} (h : lo.toInt < hi.toInt) :
    (BitVec.ofInt 32 (lo.toInt + raw.toInt % (hi.toInt - lo.toInt))).toInt =
      lo.toInt + raw.toInt % (hi.toInt - lo.toInt) := by
  have h0 := Int.emod_nonneg raw.toInt (show hi.toInt - lo.toInt ≠ 0 by omega)
  have h1 := Int.emod_lt_of_pos raw.toInt (show 0 < hi.toInt - lo.toInt by omega)
  have hlo : -2147483648 ≤ lo.toInt := by have := BitVec.le_toInt lo; simpa using this
  have hhi : hi.toInt < 2147483648 := by have := BitVec.toInt_lt (x := hi); simpa using this
  rw [BitVec.toInt_ofInt]
  refine Int.bmod_eq_of_le ?_ ?_ <;> norm_num <;> omega

/-- `CONV_DBL` rejects exactly when the IEEE comparison is true (41 R78). -/
theorem convDbl_invalid {raw : Word} {lo hi : Wide} (h : fle (unpack hi) (unpack lo) = true) :
    convDbl raw lo hi = none := if_pos h

/-- `CONV_DBL` on a pair that is not rejected (41 R82). -/
theorem convDbl_valid {raw : Word} {lo hi : Wide} (h : fle (unpack hi) (unpack lo) = false) :
    convDbl raw lo hi = some (fadd (dblP raw lo hi) (unpack lo)) := if_neg (by simp [dblBoundsInvalid, h])

/-! ### The draws -/

/-- Everything a stateful integer draw can do (42 R90, R100). -/
theorem drawInt_cases (layout : Word → Wide) (lo hi : Word) (s : State) :
    (hi.toInt ≤ lo.toInt ∧ drawInt layout lo hi s = s.raise .invalidRange) ∨
    (lo.toInt < hi.toInt ∧ ∃ v, convInt (transform s.STATE) lo hi = some v ∧
      drawInt layout lo hi s = (s.writeSTATE (transform s.STATE)).respondOk (layout v)) := by
  rcases le_or_gt hi.toInt lo.toInt with h | h
  · left; exact ⟨h, by simp [drawInt, convInt_invalid h]⟩
  · right; exact ⟨h, _, convInt_valid h, by simp [drawInt, convInt_valid h]⟩

/-- Everything a stateful double draw can do (42 R90, R100). -/
theorem drawDbl_cases (lo hi : Wide) (s : State) :
    (fle (unpack hi) (unpack lo) = true ∧ drawDbl lo hi s = s.raise .invalidRange) ∨
    (fle (unpack hi) (unpack lo) = false ∧ ∃ y, convDbl (transform s.STATE) lo hi = some y ∧
      drawDbl lo hi s = (s.writeSTATE (transform s.STATE)).respondDatum y) := by
  rcases h : fle (unpack hi) (unpack lo)
  · right; exact ⟨rfl, _, convDbl_valid h, by simp [drawDbl, convDbl_valid h]⟩
  · left; exact ⟨rfl, by simp [drawDbl, convDbl_invalid h]⟩

/-- Everything a stateless integer draw can do (43 R106). -/
theorem sdrawInt_cases (seed lo hi : Word) (s : State) :
    (hi.toInt ≤ lo.toInt ∧ sdrawInt seed lo hi s = s.raise .invalidRange) ∨
    (lo.toInt < hi.toInt ∧ ∃ v, convInt (transform seed) lo hi = some v ∧
      sdrawInt seed lo hi s = s.respondOk (dataOfWord v)) := by
  rcases le_or_gt hi.toInt lo.toInt with h | h
  · left; exact ⟨h, by simp [sdrawInt, convInt_invalid h]⟩
  · right; exact ⟨h, _, convInt_valid h, by simp [sdrawInt, convInt_valid h]⟩

/-- Everything a stateless double draw can do (43 R106). -/
theorem sdrawDbl_cases (seed : Word) (lo hi : Wide) (s : State) :
    (fle (unpack hi) (unpack lo) = true ∧ sdrawDbl seed lo hi s = s.raise .invalidRange) ∨
    (fle (unpack hi) (unpack lo) = false ∧ ∃ y, convDbl (transform seed) lo hi = some y ∧
      sdrawDbl seed lo hi s = s.respondDatum y) := by
  rcases h : fle (unpack hi) (unpack lo)
  · right; exact ⟨rfl, _, convDbl_valid h, by simp [sdrawDbl, convDbl_valid h]⟩
  · left; exact ⟨rfl, by simp [sdrawDbl, convDbl_invalid h]⟩

/-- `OK` after a write of `STATE`, as one update. -/
theorem writeSTATE_respondOk (s : State) (x : Word) (d : Wide) :
    (s.writeSTATE x).respondOk d = { s with STATE := x, rsps := s.rsps ++ [okWord d] } := rfl

theorem respondOk_eq (s : State) (d : Wide) : s.respondOk d = { s with rsps := s.rsps ++ [okWord d] } := rfl

theorem writeSTATE_respondDatum (s : State) (x : Word) (y : Datum) :
    (s.writeSTATE x).respondDatum y =
      { s with STATE := x, rsps := s.rsps ++ [okWord (pack (Config.nanOut s.nanDraws) y)],
               nanDraws := if y = .nan then s.nanDraws + 1 else s.nanDraws } := rfl

theorem respondDatum_eq (s : State) (y : Datum) :
    s.respondDatum y =
      { s with rsps := s.rsps ++ [okWord (pack (Config.nanOut s.nanDraws) y)],
               nanDraws := if y = .nan then s.nanDraws + 1 else s.nanDraws } := rfl

theorem raise_invalidRange (s : State) :
    s.raise .invalidRange = { s with rsps := s.rsps ++ [invalidRangeWord] } := rfl

/-- A stateful integer draw that completes, as one update. -/
theorem drawInt_some {layout : Word → Wide} {lo hi v : Word} {s : State}
    (h : convInt (transform s.STATE) lo hi = some v) :
    drawInt layout lo hi s = { s with STATE := transform s.STATE, rsps := s.rsps ++ [okWord (layout v)] } := by
  simp only [drawInt, h, writeSTATE_respondOk]

/-- A stateful double draw that completes, as one update. -/
theorem drawDbl_some {lo hi : Wide} {y : Datum} {s : State} (h : convDbl (transform s.STATE) lo hi = some y) :
    drawDbl lo hi s =
      { s with STATE := transform s.STATE, rsps := s.rsps ++ [okWord (pack (Config.nanOut s.nanDraws) y)],
               nanDraws := if y = .nan then s.nanDraws + 1 else s.nanDraws } := by
  simp only [drawDbl, h, writeSTATE_respondDatum]

/-- A stateless integer draw that completes, as one update. -/
theorem sdrawInt_some {seed lo hi v : Word} {s : State} (h : convInt (transform seed) lo hi = some v) :
    sdrawInt seed lo hi s = { s with rsps := s.rsps ++ [okWord (dataOfWord v)] } := by
  simp only [sdrawInt, h, respondOk_eq]

/-- A stateless double draw that completes, as one update. -/
theorem sdrawDbl_some {seed : Word} {lo hi : Wide} {y : Datum} {s : State}
    (h : convDbl (transform seed) lo hi = some y) :
    sdrawDbl seed lo hi s =
      { s with rsps := s.rsps ++ [okWord (pack (Config.nanOut s.nanDraws) y)],
               nanDraws := if y = .nan then s.nanDraws + 1 else s.nanDraws } := by
  simp only [sdrawDbl, h, respondDatum_eq]

/-- The transform by its definition (40 R57). -/
theorem transform_eq (seed : Word) :
    transform seed =
      fold ((fold ((seed + Params.cAdd).setWidth 64 * Params.cMul1)).setWidth 64 * Params.cMul2) := by
  rw [BitVec.add_comm, BitVec.mul_comm _ Params.cMul1, BitVec.mul_comm _ Params.cMul2]
  rfl

/-! ### The ports -/

/-- The reset input is asserted in the coming step. -/
def State.underReset (s : State) : Prop :=
  ∃ line, s.resetLine = .asserted :: line ∨ s.resetLine = .assertedMidCommand :: line

/-- What a released reset input looks like. -/
theorem not_underReset_iff (s : State) :
    ¬ s.underReset ↔ s.resetLine = [] ∨ ∃ line, s.resetLine = .released :: line := by
  unfold State.underReset
  rcases s.resetLine with _ | ⟨_ | _ | _, line⟩ <;> simp

/-- A presented word is accepted when the reset input is released (20 R27). -/
theorem portEvent_command {s : State} {w : Cmd} {rest : List Cmd} (hr : ¬ s.underReset) (hc : s.cmds = w :: rest) :
    s.portEvent = .command w { s with resetLine := s.resetLine.tail, cmds := rest } := by
  rcases (not_underReset_iff s).mp hr with h | ⟨line, h⟩ <;> simp [State.portEvent, h, hc]

/-- With no word presented the block stays idle (60 R127). -/
theorem portEvent_idle {s : State} (hr : ¬ s.underReset) (hc : s.cmds = []) :
    s.portEvent = .idle { s with resetLine := s.resetLine.tail } := by
  rcases (not_underReset_iff s).mp hr with h | ⟨line, h⟩ <;> simp [State.portEvent, h, hc]

/-- Everything the ports can bring to a step (30 R34, 70 R136). -/
theorem portEvent_cases (s : State) :
    (∃ line, s.resetLine = .asserted :: line ∧ s.portEvent = .reset ({ s with resetLine := line }.resetBlock none)) ∨
    (∃ line, s.resetLine = .assertedMidCommand :: line ∧
      s.portEvent = .reset ({ s with resetLine := line, cmds := s.cmds.tail }.resetBlock s.cmds.head?)) ∨
    (¬ s.underReset ∧ s.cmds = [] ∧ s.portEvent = .idle { s with resetLine := s.resetLine.tail }) ∨
    (¬ s.underReset ∧ ∃ w rest, s.cmds = w :: rest ∧
      s.portEvent = .command w { s with resetLine := s.resetLine.tail, cmds := rest }) := by
  by_cases hr : s.underReset
  · obtain ⟨line, h | h⟩ := hr
    · left; exact ⟨line, h, by simp [State.portEvent, h]⟩
    · right; left; exact ⟨line, h, by simp [State.portEvent, h]⟩
  · right; right
    rcases hc : s.cmds with _ | ⟨w, rest⟩
    · left; exact ⟨hr, rfl, by rw [portEvent_idle hr hc, hc]⟩
    · right; exact ⟨hr, w, rest, rfl, portEvent_command hr hc⟩

end Sys2Proof.Machine
end

