-- ==== Sys2Proof/Laws/Step.lean ====
section
/-!
SUPPORT. What every command does to the state, and what a step does, each said once.
-/

namespace Sys2Proof.Machine

/-- A command completed with the response word `r`, the state register `x` and `n` NaN patterns chosen so far; every
other field is as it was. -/
def State.after (s : State) (x : Word) (r : Rsp) (n : Nat) : State :=
  { s with STATE := x, rsps := s.rsps ++ [r], nanDraws := n }

theorem respondOk_after (s : State) (x : Word) (d : Wide) :
    (s.writeSTATE x).respondOk d = s.after x (okWord d) s.nanDraws := rfl

theorem respondDatum_after (s : State) (x : Word) (y : Datum) :
    (s.writeSTATE x).respondDatum y =
      s.after x (okWord (pack (Config.nanOut s.nanDraws) y)) (if y = .nan then s.nanDraws + 1 else s.nanDraws) := rfl

theorem raise_after (s : State) : s.raise .invalidRange = s.after s.STATE invalidRangeWord s.nanDraws := rfl

/-- What a command answers, before it is laid out as a response word. -/
inductive Answer where
  /-- `INVALID_RANGE` (60 R117). -/
  | invalid
  /-- `OK` with the given data. -/
  | data (d : Wide)
  /-- `OK` with a double. -/
  | datum (y : Datum)
deriving DecidableEq, Repr

/-- The answer of an integer conversion. -/
def Answer.ofInt (layout : Word → Wide) : Option Word → Answer
  | none   => .invalid
  | some v => .data (layout v)

/-- The answer of a double conversion. -/
def Answer.ofDbl : Option Datum → Answer
  | none   => .invalid
  | some y => .datum y

/-- The answer of a command at the value `x` of `STATE`. -/
def answer : Instr → Word → Answer
  | .seed _, _            => .data 0#64
  | .mix v, _             => .data (dataOfWord (transform v))
  | .next, x              => .ofInt dataOfWord (convInt (transform x) 0#32 Params.int32Max)
  | .nextm hi, x          => .ofInt dataOfWord (convInt (transform x) 0#32 hi)
  | .nextr lo hi, x       => .ofInt dataOfWord (convInt (transform x) lo hi)
  | .nextb, x             => .ofInt dataOfByte (convInt (transform x) 0#32 Params.int32Max)
  | .nextd, x             => .ofDbl (convDbl (transform x) Params.dblZero Params.dblOne)
  | .nextdm hi, x         => .ofDbl (convDbl (transform x) Params.dblZero hi)
  | .nextdr lo hi, x      => .ofDbl (convDbl (transform x) lo hi)
  | .snext seed, _        => .ofInt dataOfWord (convInt (transform seed) 0#32 Params.int32Max)
  | .snextm seed hi, _    => .ofInt dataOfWord (convInt (transform seed) 0#32 hi)
  | .snextr seed lo hi, _ => .ofInt dataOfWord (convInt (transform seed) lo hi)
  | .snextd seed, _       => .ofDbl (convDbl (transform seed) Params.dblZero Params.dblOne)
  | .snextdm seed hi, _   => .ofDbl (convDbl (transform seed) Params.dblZero hi)
  | .snextdr seed lo hi, _ => .ofDbl (convDbl (transform seed) lo hi)

/-- The response word of an answer when `n` NaN patterns have been chosen before it. -/
def Answer.word (n : Nat) : Answer → Rsp
  | .invalid => invalidRangeWord
  | .data d  => okWord d
  | .datum y => okWord (pack (Config.nanOut n) y)

/-- The number of NaN patterns chosen after an answer. -/
def Answer.draws (n : Nat) : Answer → Nat
  | .datum .nan => n + 1
  | .datum (.inf _) | .datum (.fin _ _) | .invalid | .data _ => n

theorem drawInt_answer (layout : Word → Wide) (lo hi : Word) (s : State) {a : Answer}
    (ha : a = .ofInt layout (convInt (transform s.STATE) lo hi)) :
    drawInt layout lo hi s =
      s.after (if a = .invalid then s.STATE else transform s.STATE) (a.word s.nanDraws) (a.draws s.nanDraws) := by
  subst ha
  unfold drawInt
  cases convInt (transform s.STATE) lo hi with
  | none => exact (raise_after s).trans (by simp [Answer.ofInt, Answer.word, Answer.draws])
  | some v => exact (respondOk_after s _ _).trans (by simp [Answer.ofInt, Answer.word, Answer.draws])

theorem drawDbl_answer (lo hi : Wide) (s : State) {a : Answer}
    (ha : a = .ofDbl (convDbl (transform s.STATE) lo hi)) :
    drawDbl lo hi s =
      s.after (if a = .invalid then s.STATE else transform s.STATE) (a.word s.nanDraws) (a.draws s.nanDraws) := by
  subst ha
  unfold drawDbl
  cases convDbl (transform s.STATE) lo hi with
  | none => exact (raise_after s).trans (by simp [Answer.ofDbl, Answer.word, Answer.draws])
  | some y =>
    refine (respondDatum_after s _ y).trans ?_
    cases y <;> simp [Answer.ofDbl, Answer.word, Answer.draws]

theorem sdrawInt_answer (seed lo hi : Word) (s : State) {a : Answer}
    (ha : a = .ofInt dataOfWord (convInt (transform seed) lo hi)) :
    sdrawInt seed lo hi s = s.after s.STATE (a.word s.nanDraws) (a.draws s.nanDraws) := by
  subst ha
  unfold sdrawInt
  cases convInt (transform seed) lo hi with
  | none => exact raise_after s
  | some v => exact respondOk_after s s.STATE _

theorem sdrawDbl_answer (seed : Word) (lo hi : Wide) (s : State) {a : Answer}
    (ha : a = .ofDbl (convDbl (transform seed) lo hi)) :
    sdrawDbl seed lo hi s = s.after s.STATE (a.word s.nanDraws) (a.draws s.nanDraws) := by
  subst ha
  unfold sdrawDbl
  cases convDbl (transform seed) lo hi with
  | none => exact raise_after s
  | some y =>
    refine (respondDatum_after s s.STATE y).trans ?_
    cases y <;> simp [Answer.ofDbl, Answer.word, Answer.draws]

/-- An integer conversion answers `INVALID_RANGE` exactly on invalid bounds. -/
theorem ofInt_invalid_iff (layout : Word → Wide) (raw lo hi : Word) :
    Answer.ofInt layout (convInt raw lo hi) = .invalid ↔ decide (hi.toInt ≤ lo.toInt) = true := by
  rcases le_or_gt hi.toInt lo.toInt with h | h
  · simp [convInt_invalid h, Answer.ofInt, h]
  · simp [convInt_valid h, Answer.ofInt, h]

/-- A double conversion answers `INVALID_RANGE` exactly on invalid bounds. -/
theorem ofDbl_invalid_iff (raw : Word) (lo hi : Wide) :
    Answer.ofDbl (convDbl raw lo hi) = .invalid ↔ fle (unpack hi) (unpack lo) = true := by
  cases h : fle (unpack hi) (unpack lo)
  · simp [convDbl_valid h, Answer.ofDbl]
  · simp [convDbl_invalid h, Answer.ofDbl]

theorem unpack_dblZero : unpack Params.dblZero = .fin false 0 := by decide +kernel

/-- The default integer range is valid (42 R92). -/
theorem int32Max_valid : decide (Params.int32Max.toInt ≤ (0#32).toInt) = false := by decide

/-- The default double range is valid (42 R96). -/
theorem dblOne_valid : fle (unpack Params.dblOne) (unpack Params.dblZero) = false := by decide +kernel

/-- A command answers `INVALID_RANGE` exactly when its bounds are invalid, whatever `STATE` is (60 R117). -/
theorem answer_invalid_iff (i : Instr) (x : Word) : answer i x = .invalid ↔ rangeInvalid i = true := by
  cases i with
  | seed v => simp [answer, rangeInvalid]
  | mix v => simp [answer, rangeInvalid]
  | next => rw [answer, ofInt_invalid_iff, int32Max_valid, rangeInvalid]
  | nextm hi => rw [answer, ofInt_invalid_iff, BitVec.toInt_zero, rangeInvalid]
  | nextr lo hi => rw [answer, ofInt_invalid_iff, rangeInvalid]
  | nextb => rw [answer, ofInt_invalid_iff, int32Max_valid, rangeInvalid]
  | nextd => rw [answer, ofDbl_invalid_iff, dblOne_valid, rangeInvalid]
  | nextdm hi => rw [answer, ofDbl_invalid_iff, unpack_dblZero, rangeInvalid]
  | nextdr lo hi => rw [answer, ofDbl_invalid_iff, rangeInvalid]
  | snext v => rw [answer, ofInt_invalid_iff, int32Max_valid, rangeInvalid]
  | snextm v hi => rw [answer, ofInt_invalid_iff, BitVec.toInt_zero, rangeInvalid]
  | snextr v lo hi => rw [answer, ofInt_invalid_iff, rangeInvalid]
  | snextd v => rw [answer, ofDbl_invalid_iff, dblOne_valid, rangeInvalid]
  | snextdm v hi => rw [answer, ofDbl_invalid_iff, unpack_dblZero, rangeInvalid]
  | snextdr v lo hi => rw [answer, ofDbl_invalid_iff, rangeInvalid]

/-- `STATE` after a stateful draw, by its answer. -/
theorem nextSTATE_draw {i : Instr} (h : statefulDraw i = true) (x y : Word) :
    nextSTATE i x = if answer i y = .invalid then x else transform x := by
  have hv : ∀ v, i ≠ .seed v := by rintro v rfl; simp [statefulDraw] at h
  have he : nextSTATE i x = if statefulDraw i && !rangeInvalid i then transform x else x := by
    cases i <;> first | rfl | exact absurd rfl (hv _)
  rw [he, h]
  by_cases ha : answer i y = .invalid
  · simp [ha, (answer_invalid_iff i y).mp ha]
  · have := mt (answer_invalid_iff i y).mpr ha
    simp [ha, this]

/-- Everything a command does, in one equation: it answers a next state in which `STATE` is as 10 R12 says, one response
has been added, the NaN patterns used have been counted, and every other field is as it was. -/
theorem exec_eq (i : Instr) (s : State) :
    exec i s = .next (s.after (nextSTATE i s.STATE) ((answer i s.STATE).word s.nanDraws)
      ((answer i s.STATE).draws s.nanDraws)) := by
  cases i with
  | seed v => rfl
  | mix v => rfl
  | next =>
    rw [exec, execNext, nextSTATE_draw (i := .next) rfl s.STATE s.STATE,
      drawInt_answer dataOfWord 0#32 Params.int32Max s (a := answer .next s.STATE) (by simp only [answer])]
  | nextm hi =>
    rw [exec, execNextm, nextSTATE_draw (i := (.nextm hi)) rfl s.STATE s.STATE,
      drawInt_answer dataOfWord 0#32 hi s (a := answer (.nextm hi) s.STATE) (by simp only [answer])]
  | nextr lo hi =>
    rw [exec, execNextr, nextSTATE_draw (i := (.nextr lo hi)) rfl s.STATE s.STATE,
      drawInt_answer dataOfWord lo hi s (a := answer (.nextr lo hi) s.STATE) (by simp only [answer])]
  | nextb =>
    rw [exec, execNextb, nextSTATE_draw (i := .nextb) rfl s.STATE s.STATE,
      drawInt_answer dataOfByte 0#32 Params.int32Max s (a := answer .nextb s.STATE) (by simp only [answer])]
  | nextd =>
    rw [exec, execNextd, nextSTATE_draw (i := .nextd) rfl s.STATE s.STATE,
      drawDbl_answer Params.dblZero Params.dblOne s (a := answer .nextd s.STATE) (by simp only [answer])]
  | nextdm hi =>
    rw [exec, execNextdm, nextSTATE_draw (i := (.nextdm hi)) rfl s.STATE s.STATE,
      drawDbl_answer Params.dblZero hi s (a := answer (.nextdm hi) s.STATE) (by simp only [answer])]
  | nextdr lo hi =>
    rw [exec, execNextdr, nextSTATE_draw (i := (.nextdr lo hi)) rfl s.STATE s.STATE,
      drawDbl_answer lo hi s (a := answer (.nextdr lo hi) s.STATE) (by simp only [answer])]
  | snext v =>
    rw [exec, execSnext, sdrawInt_answer v 0#32 Params.int32Max s (a := answer (.snext v) s.STATE) (by simp only [answer])]
    rfl
  | snextm v hi =>
    rw [exec, execSnextm, sdrawInt_answer v 0#32 hi s (a := answer (.snextm v hi) s.STATE) (by simp only [answer])]
    rfl
  | snextr v lo hi =>
    rw [exec, execSnextr, sdrawInt_answer v lo hi s (a := answer (.snextr v lo hi) s.STATE) (by simp only [answer])]
    rfl
  | snextd v =>
    rw [exec, execSnextd, sdrawDbl_answer v Params.dblZero Params.dblOne s (a := answer (.snextd v) s.STATE) (by simp only [answer])]
    rfl
  | snextdm v hi =>
    rw [exec, execSnextdm, sdrawDbl_answer v Params.dblZero hi s (a := answer (.snextdm v hi) s.STATE) (by simp only [answer])]
    rfl
  | snextdr v lo hi =>
    rw [exec, execSnextdr, sdrawDbl_answer v lo hi s (a := answer (.snextdr v lo hi) s.STATE) (by simp only [answer])]
    rfl

/-- Every answer is a legal response (30 R43). -/
theorem rspLegal_word (a : Answer) (n : Nat) : rspLegal (a.word n) = true := by
  cases a with
  | invalid => exact rspLegal_invalidRangeWord
  | data d => exact rspLegal_okWord d
  | datum y => exact rspLegal_okWord _

/-- The response codes 0 and 1 are told apart. -/
theorem okWord_ne_invalidRangeWord (d : Wide) : okWord d ≠ invalidRangeWord := by
  intro h
  have h1 := congrArg rspErr h
  rw [← rspWord_ok, ← rspWord_invalidRange, rspErr_rspWord, rspErr_rspWord] at h1
  exact absurd h1 (by decide)

/-- A step that accepts a legal word runs its command. -/
theorem step_command {s : State} {w : Cmd} {rest : List Cmd} {i : Instr} (hr : ¬ s.underReset)
    (hc : s.cmds = w :: rest) (hd : decode w = some i) :
    step s = exec i { s with resetLine := s.resetLine.tail, cmds := rest } := by
  simp only [step, portEvent_command hr hc, hd]

/-- A step that accepts an illegal word ends with `ILLEGAL_OP` (60 R118). -/
theorem step_illegal {s : State} {w : Cmd} {rest : List Cmd} (hr : ¬ s.underReset)
    (hc : s.cmds = w :: rest) (hd : decode w = none) :
    step s = .next (State.raise .illegalOp { s with resetLine := s.resetLine.tail, cmds := rest }) := by
  simp only [step, portEvent_command hr hc, hd]

/-- With no word presented a step leaves the machine as it is, but for the sample of the reset input. -/
theorem step_idle {s : State} (hr : ¬ s.underReset) (hc : s.cmds = []) :
    step s = .next { s with resetLine := s.resetLine.tail } := by
  simp only [step, portEvent_idle hr hc]

/-- Everything a step can do: the reset input, nothing, an illegal word, or one command. -/
theorem step_cases (s : State) :
    (∃ line, s.resetLine = .asserted :: line ∧ step s = .next ({ s with resetLine := line }.resetBlock none)) ∨
    (∃ line, s.resetLine = .assertedMidCommand :: line ∧
      step s = .next ({ s with resetLine := line, cmds := s.cmds.tail }.resetBlock s.cmds.head?)) ∨
    (¬ s.underReset ∧ s.cmds = [] ∧ step s = .next { s with resetLine := s.resetLine.tail }) ∨
    (¬ s.underReset ∧ ∃ w rest, s.cmds = w :: rest ∧ decode w = none ∧
      step s = .next (State.raise .illegalOp { s with resetLine := s.resetLine.tail, cmds := rest })) ∨
    (¬ s.underReset ∧ ∃ w rest i, s.cmds = w :: rest ∧ decode w = some i ∧
      step s = exec i { s with resetLine := s.resetLine.tail, cmds := rest }) := by
  rcases portEvent_cases s with ⟨l, h, e⟩ | ⟨l, h, e⟩ | ⟨h, hc, -⟩ | ⟨h, w, rest, hc, -⟩
  · exact .inl ⟨l, h, by simp only [step, e]⟩
  · exact .inr (.inl ⟨l, h, by simp only [step, e]⟩)
  · exact .inr (.inr (.inl ⟨h, hc, step_idle h hc⟩))
  · cases hd : decode w with
    | none => exact .inr (.inr (.inr (.inl ⟨h, w, rest, hc, hd, step_illegal h hc hd⟩)))
    | some i => exact .inr (.inr (.inr (.inr ⟨h, w, rest, i, hc, hd, step_command h hc hd⟩)))

/-- A run goes on from where its first step led. -/
theorem run_step {n : Nat} {s t : State} (h : step s = .next t) :
    Host.Core.run Sys2Proof.core (n + 1) s = Host.Core.run Sys2Proof.core n t := by
  have h' : Sys2Proof.core.step s = .next t := h
  simp only [Host.Core.run, h']

end Sys2Proof.Machine
end

