-- ==== Sys2Proof/Laws/Answers.lean ====
section
/-!
SUPPORT. The answers of commands (10_state.md R12, R13; 43_stateless_draws.md R113) and the Euclidean remainder in the
second wording of 41_range_conversion.md R71.
-/

namespace Sys2Proof.Machine

/-- A failed command leaves `STATE` alone (60 R122). -/
theorem nextSTATE_of_rangeInvalid {i : Instr} (h : rangeInvalid i = true) (x : Word) : nextSTATE i x = x := by
  cases i <;> simp_all [nextSTATE, rangeInvalid, statefulDraw]

/-- The answer of a command that is no stateful draw does not depend on `STATE` (10 R13). -/
theorem answer_stateless {i : Instr} (h : statefulDraw i = false) (x y : Word) : answer i x = answer i y := by
  cases i <;> first | (simp [statefulDraw] at h; done) | simp only [answer]

/-- `MIX` and the stateless draws leave `STATE` alone (10 R12). -/
theorem nextSTATE_stateless {i : Instr} (h : statefulDraw i = false) (hv : ∀ v, i ≠ .seed v) (x : Word) : nextSTATE i x = x := by
  cases i <;> first | rfl | (simp [statefulDraw] at h; done) | exact absurd rfl (hv _)

/-- The response words of one answer agree, whatever NaN patterns were chosen (43 R113). -/
theorem rspAgree_word (a : Answer) (n m : Nat) : rspAgree (a.word n) (a.word m) := by
  cases a with
  | invalid => exact .inl rfl
  | data d => exact .inl rfl
  | datum y =>
    cases y with
    | nan => exact .inr ⟨_, _, rfl, rfl, nanPatternOk_pack_nan _, nanPatternOk_pack_nan _⟩
    | inf => exact .inl rfl
    | fin => exact .inl rfl

/-- The Euclidean remainder of a negative number, by the second wording of R71. -/
theorem emod_of_neg (r d : Int) (hd : 1 ≤ d) (h : r < 0) : r % d = if (-r).toNat % d.toNat = 0 then 0 else d - (((-r).toNat % d.toNat : Nat) : Int) := by
  obtain ⟨n, hn⟩ : ∃ n : Nat, -r = n := ⟨(-r).toNat, by omega⟩
  obtain ⟨k, hk⟩ : ∃ k : Nat, d = k := ⟨d.toNat, by omega⟩
  have : r = -(n : Int) := by omega
  subst hk; subst this
  have e := Nat.div_add_mod n k
  have hl := Nat.mod_lt n (show 0 < k by omega)
  simp only [neg_neg, Int.toNat_natCast]
  rw [Int.emod_eq_iff (by omega) |>.mpr]
  split
  · rename_i h0
    refine ⟨by omega, by omega, ?_⟩
    rw [← e, h0]
    exact ⟨((n / k : Nat) : Int), by push_cast; ring⟩
  · rename_i h0
    refine ⟨by omega, by simp; omega, ?_⟩
    refine ⟨((n / k : Nat) : Int) + 1, ?_⟩
    zify at e
    push_cast; linarith

/-- The Euclidean remainder of the narrowed `raw` is the second wording of R71. -/
theorem toInt_emod (raw : Word) (d : Int) (hd : 0 < d) : raw.toInt % d = remainderOfRaw raw d.toNat := by
  have hr := raw.isLt
  unfold remainderOfRaw
  split
  · rename_i h
    rw [BitVec.toInt_eq_toNat_of_lt (by omega)]
    push_cast; rw [Int.toNat_of_nonneg (by omega)]
  · rename_i h
    have e : raw.toInt = (raw.toNat : Int) - 2^32 := by rw [BitVec.toInt_eq_toNat_cond, if_neg (by omega)]; rfl
    have hneg : raw.toInt < 0 := by omega
    rw [emod_of_neg _ _ (by omega) hneg]
    have : (-raw.toInt).toNat = 2^32 - raw.toNat := by omega
    rw [this]
    have hl := Nat.mod_lt (2^32 - raw.toNat) (show 0 < d.toNat by omega)
    split
    · rfl
    · rw [Nat.cast_sub hl.le]; omega

end Sys2Proof.Machine
end

