-- ==== Sys2Proof/Laws/Arith.lean ====
section
/-!
SUPPORT. The four binary64 operations (41_range_conversion.md R79, R80, R83): each rounds its exact result, sums keep their
order, and what `u` of R82 can be.
-/

namespace Sys2Proof.Machine

/-- A datum made by rounding the fraction `num / den` of units is the correctly rounded value of the number that fraction
stands for (R79, R80). -/
theorem roundsTo_of_fraction (neg : Bool) (num den : Nat) (hd : 0 < den) (x : ℚ)
    (hx : x * unitsPerOne = signedMag neg num / (den : ℚ)) (y : Datum) (hy : y = ofMag neg (roundMag num den)) : RoundsTo x y := by
  have hU : (0:ℚ) < unitsPerOne := by exact_mod_cast unitsPerOne_pos
  have hD : (0:ℚ) < den := by exact_mod_cast hd
  have hnum : (0:ℚ) ≤ num := Nat.cast_nonneg _
  have hval : ∀ (b : Bool) (m : Nat), (Datum.fin b m).value - x = (signedMag b m * den - signedMag neg num) / (unitsPerOne * den) := by
    intro b m
    have : x = signedMag neg num / (den * unitsPerOne) := by field_simp; field_simp at hx; linarith
    rw [this, Datum.value]; field_simp
  have hpos : (0:ℚ) < unitsPerOne * den := by positivity
  have habs : ∀ (b : Bool) (m : Nat), |(Datum.fin b m).value - x| = |((signedMag b m * den - signedMag neg num : Int) : ℚ)| / (unitsPerOne * den) := by
    intro b m; rw [hval, abs_div, abs_of_pos hpos]; push_cast; rfl
  have hcmp : ∀ (b : Bool) (m : Nat), |(roundMag num den * den : Int) - num| ≤ |(m * den : Int) - num| → |(roundMag num den * den : Int) - num| ≤ |signedMag b m * den - signedMag neg num| := by
    intro b m h
    refine le_trans h ?_
    have h1 : (0:Int) ≤ m * den := by positivity
    have h2 : (0:Int) ≤ num := by positivity
    cases b <;> cases neg <;> simp only [signedMag, if_true, if_false, Bool.false_eq_true]
    · rfl
    · rw [show (m * den : Int) - -num = m * den + num by ring, abs_of_nonneg (show (0:Int) ≤ m * den + num by positivity)]
      exact abs_le.mpr ⟨by linarith, by linarith⟩
    · rw [show (-m * den : Int) - num = -(m * den + num) by ring, abs_neg, abs_of_nonneg (show (0:Int) ≤ m * den + num by positivity)]
      exact abs_le.mpr ⟨by linarith, by linarith⟩
    · rw [show (-m * den : Int) - -num = -(m * den - num) by ring, abs_neg]
  have hself : |signedMag neg (roundMag num den) * den - signedMag neg num| = |(roundMag num den * den : Int) - num| := by
    cases neg <;> simp only [signedMag, if_true, if_false, Bool.false_eq_true]
    rw [show (-(roundMag num den : Int) * den : Int) - -num = -(roundMag num den * den - num) by ring, abs_neg]
  refine ⟨neg, roundMag num den, roundMag_representable num hd, ?_, ?_, ?_, hy⟩
  · intro hlt
    by_contra hn
    have : neg = false := by simpa using hn
    subst this
    have : (0:ℚ) ≤ x * unitsPerOne := by rw [hx]; simp only [signedMag]; positivity
    nlinarith
  · intro hlt
    by_contra hn
    have : neg = true := by simpa using hn
    subst this
    have : x * unitsPerOne ≤ 0 := by
      rw [hx]; simp only [signedMag, if_true]; push_cast; rw [neg_div]; have : (0:ℚ) ≤ num / den := by positivity
      linarith
    nlinarith
  · intro b m hm
    have hn := hcmp b m (roundMag_nearest num hd hm)
    rw [habs, habs, ← Int.cast_abs, ← Int.cast_abs, hself]
    refine ⟨?_, fun hne heq => ?_⟩
    · apply div_le_div_of_nonneg_right _ hpos.le
      exact_mod_cast hn
    · rw [div_left_inj' hpos.ne'] at heq
      have heq : |(roundMag num den * den : Int) - num| = |signedMag b m * den - signedMag neg num| := by exact_mod_cast heq
      -- a tie with a number of the other sign is a tie with its magnitude
      have h1 := roundMag_nearest num hd hm
      have h3 : |(roundMag num den * den : Int) - num| = |(m * den : Int) - num| := by
        refine le_antisymm h1 ?_
        rw [heq]
        have g1 : (0:Int) ≤ m * den := by positivity
        have g2 : (0:Int) ≤ num := by positivity
        cases b <;> cases neg <;> simp only [signedMag, if_true, if_false, Bool.false_eq_true]
        · rfl
        · rw [show (m * den : Int) - -num = m * den + num by ring, abs_of_nonneg (show (0:Int) ≤ m * den + num by positivity)]
          exact abs_le.mpr ⟨by linarith, by linarith⟩
        · rw [show (-m * den : Int) - num = -(m * den + num) by ring, abs_neg, abs_of_nonneg (show (0:Int) ≤ m * den + num by positivity)]
          exact abs_le.mpr ⟨by linarith, by linarith⟩
        · rw [show (-m * den : Int) - -num = -(m * den - num) by ring, abs_neg]
      exact roundMag_tie num hd hm hne h3

/-- The exact sum `z` of two finite data, rounded; `s` is the sign of an exact zero. -/
def roundedSum (z : Int) (s : Bool) : Datum :=
  if z = 0 then .fin s 0 else ofMag (decide (z < 0)) (roundMag z.natAbs 1)

/-- Zero rounds to zero. -/
theorem roundMag_zero : roundMag 0 1 = 0 := by
  have := roundMag_exact (m := 0) (den := 1) Nat.one_pos representable_zero; simpa using this

/-- Rounding whole magnitudes keeps their order. -/
theorem roundMag_one_mono {a b : Nat} (h : a ≤ b) : roundMag a 1 ≤ roundMag b 1 := by exact roundMag_mono Nat.one_pos Nat.one_pos (by omega)

/-- Everything a rounded sum can be. -/
theorem roundedSum_cases (z : Int) (s : Bool) : (roundedSum z s = .inf (decide (z < 0)) ∧ magLimit ≤ roundMag z.natAbs 1 ∧ z ≠ 0) ∨ (∃ b, roundedSum z s = .fin b (roundMag z.natAbs 1) ∧ roundMag z.natAbs 1 < magLimit ∧ (z < 0 → b = true) ∧ (0 < z → b = false)) := by
  unfold roundedSum
  split
  · rename_i h; subst h; right; exact ⟨s, by rw [show (0:Int).natAbs = 0 by rfl, roundMag_zero], by rw [show (0:Int).natAbs = 0 by rfl, roundMag_zero]; exact magLimit_pos, by omega, by omega⟩
  · rename_i h
    unfold ofMag
    split
    · left; exact ⟨rfl, ‹_›, h⟩
    · right; exact ⟨_, rfl, by omega, by simp, by simp; omega⟩

/-- Rounding sums keeps their order. -/
theorem fle_roundedSum {z1 z2 : Int} (s1 s2 : Bool) (h : z1 ≤ z2) : fle (roundedSum z1 s1) (roundedSum z2 s2) = true := by
  rcases roundedSum_cases z1 s1 with ⟨e1, l1, n1⟩ | ⟨b1, e1, l1, p1, q1⟩ <;> rcases roundedSum_cases z2 s2 with ⟨e2, l2, n2⟩ | ⟨b2, e2, l2, p2, q2⟩ <;> rw [e1, e2]
  · by_cases c : z1 < 0
    · simp only [c, decide_true]; rfl
    · have c2 : ¬ z2 < 0 := by omega
      simp only [c2, decide_false]; cases decide (z1 < 0) <;> rfl
  · by_cases c : z1 < 0
    · simp only [c, decide_true]; rfl
    · have := roundMag_one_mono (a := z1.natAbs) (b := z2.natAbs) (by omega); omega
  · by_cases c2 : z2 < 0
    · have := roundMag_one_mono (a := z2.natAbs) (b := z1.natAbs) (by omega); omega
    · simp only [c2, decide_false]; cases b1 <;> rfl
  · show decide (signedMag b1 _ ≤ signedMag b2 _) = true
    rw [decide_eq_true_iff]
    have key : ∀ (z : Int) (b : Bool), (z < 0 → b = true) → (0 < z → b = false) → signedMag b (roundMag z.natAbs 1) = if z < 0 then -(roundMag z.natAbs 1 : Int) else roundMag z.natAbs 1 := by
      intro z b h1 h2
      by_cases c : z < 0
      · rw [h1 c, if_pos c]; rfl
      · rw [if_neg c]
        by_cases c0 : z = 0
        · subst c0; rw [show (0:Int).natAbs = 0 by rfl, roundMag_zero]; cases b <;> rfl
        · rw [h2 (by omega)]; rfl
    rw [key z1 b1 p1 q1, key z2 b2 p2 q2]
    by_cases c1 : z1 < 0 <;> by_cases c2 : z2 < 0
    · have := roundMag_one_mono (a := z2.natAbs) (b := z1.natAbs) (by omega)
      rw [if_pos c1, if_pos c2]; omega
    · rw [if_pos c1, if_neg c2]; omega
    · omega
    · have := roundMag_one_mono (a := z1.natAbs) (b := z2.natAbs) (by omega)
      rw [if_neg c1, if_neg c2]; omega

/-- A finite datum is its own rounding. -/
theorem fin_eq_roundedSum {neg : Bool} {m : Nat} (hr : Representable m) (hl : m < magLimit) : Datum.fin neg m = roundedSum (signedMag neg m) neg := by
  unfold roundedSum
  split
  · rename_i h; have : m = 0 := by cases neg <;> simp [signedMag] at h <;> omega
    rw [this]
  · rename_i h
    have e : (signedMag neg m).natAbs = m := by cases neg <;> simp [signedMag]
    rw [e, roundMag_one hr, ofMag, if_neg (by omega)]
    cases neg
    · simp [signedMag]
    · have : 0 < m := by
        rcases Nat.eq_zero_or_pos m with rfl | h'
        · simp [signedMag] at h
        · exact h'
      simp [signedMag, this]

/-- The sum of finite data is the exact sum, rounded. -/
theorem fadd_fin (a b : Bool) (m n : Nat) : fadd (.fin a m) (.fin b n) = roundedSum (signedMag a m + signedMag b n) (a && b) := by rfl

/-- `u` of R82 is finite, not negative and at most 1.0. -/
theorem dblU_eq (raw : Word) : dblU raw = .fin false (roundMag (raw.toNat * unitsPerOne) 4294967295) ∧
    roundMag (raw.toNat * unitsPerOne) 4294967295 ≤ unitsPerOne := by
  have hle : roundMag (raw.toNat * unitsPerOne) 4294967295 ≤ unitsPerOne := by
    apply roundMag_le (by decide) representable_unitsPerOne
    rw [Nat.mul_comm]; exact Nat.mul_le_mul_left _ (by have := raw.isLt; omega)
  refine ⟨?_, hle⟩
  have hU := unitsPerOne_pos
  show (if (0xFFFFFFFF#32).toNat * unitsPerOne = 0 then _ else ofMag (false != false) _) = _
  have e : (0xFFFFFFFF#32).toNat = 4294967295 := rfl
  rw [e, if_neg (by positivity)]
  rw [roundMag_scale _ _ hU]
  have hl : unitsPerOne < magLimit := by rw [unitsPerOne_eq, magLimit_eq]; exact Nat.pow_lt_pow_right (by decide) (by decide)
  have e2 : BitVec.toNat Params.uint32Max = 4294967295 := rfl
  rw [e2, ofMag, if_neg (by omega)]; rfl

/-- `u` is 0.0 exactly at `raw = 0` (R83 a). -/
theorem dblU_zero_iff (raw : Word) : roundMag (raw.toNat * unitsPerOne) 4294967295 = 0 ↔ raw = 0#32 := by
  constructor
  · intro h
    by_contra hne
    have h1 : 1 ≤ raw.toNat := by
      rcases Nat.eq_zero_or_pos raw.toNat with h0 | h0
      · exact absurd (BitVec.eq_of_toNat_eq h0) hne
      · exact h0
    have h2 : 1 ≤ roundMag (raw.toNat * unitsPerOne) 4294967295 := by
      refine le_roundMag (by decide) (representable_of_lt (by decide)) ?_
      have h3 : 4294967295 ≤ unitsPerOne := by
        rw [unitsPerOne_eq]
        calc 4294967295 ≤ 2^32 := by decide
          _ ≤ _ := Nat.pow_le_pow_right (by decide) (by decide)
      calc 1 * 4294967295 ≤ 1 * unitsPerOne := Nat.mul_le_mul_left _ h3
        _ ≤ _ := Nat.mul_le_mul_right _ h1
    omega
  · rintro rfl
    show roundMag (0 * unitsPerOne) _ = 0
    have := roundMag_exact (m := 0) (den := 4294967295) (by decide) representable_zero
    simpa using this

/-- `u` is 1.0 exactly at `raw = 0xFFFFFFFF` (R83 a). -/
theorem dblU_one_iff (raw : Word) : roundMag (raw.toNat * unitsPerOne) 4294967295 = unitsPerOne ↔ raw = 0xFFFFFFFF#32 := by
  constructor
  · intro h
    by_contra hne
    have hr := raw.isLt
    have h1 : raw.toNat ≤ 4294967294 := by
      have : raw.toNat ≠ 4294967295 := fun h0 => hne (BitVec.eq_of_toNat_eq h0)
      omega
    -- a representable just below 1: (2^53 - 1) 2^1021
    have h2 : roundMag (raw.toNat * unitsPerOne) 4294967295 ≤ (2^53-1) * 2^1021 := by
      refine roundMag_le (by decide) (representable_mul_two_pow (by decide)) ?_
      have : unitsPerOne = 2^53 * 2^1021 := by rw [unitsPerOne_eq, ← pow_add]
      rw [this]
      generalize 2^1021 = P
      have := Nat.mul_le_mul_right (2^53 * P) h1
      refine le_trans this ?_
      have e1 : 4294967294 * (2^53 * P) = (4294967294 * 2^53) * P := by ring
      have e2 : (2^53-1) * P * 4294967295 = ((2^53-1)*4294967295) * P := by ring
      rw [e1, e2]
      exact Nat.mul_le_mul_right _ (by decide)
    rw [h] at h2
    have : unitsPerOne = 2^53 * 2^1021 := by rw [unitsPerOne_eq, ← pow_add]
    rw [this] at h2
    have := Nat.le_of_mul_le_mul_right h2 (by positivity)
    revert this; decide
  · rintro rfl
    show roundMag (4294967295 * unitsPerOne) _ = _
    rw [Nat.mul_comm]
    exact roundMag_exact (by decide) representable_unitsPerOne

/-- 1.0 is below the overflow limit. -/
theorem unitsPerOne_lt_magLimit : unitsPerOne < magLimit := by rw [unitsPerOne_eq, magLimit_eq]; exact Nat.pow_lt_pow_right (by decide) (by decide)

/-- The magnitude of `u` is a binary64 magnitude. -/
theorem dblU_representable (raw : Word) : Representable (roundMag (raw.toNat * unitsPerOne) 4294967295) ∧ roundMag (raw.toNat * unitsPerOne) 4294967295 < magLimit := by
  refine ⟨roundMag_representable _ (by decide), lt_of_le_of_lt (dblU_eq raw).2 ?_⟩
  rw [unitsPerOne_eq, magLimit_eq]; exact Nat.pow_lt_pow_right (by decide) (by decide)

/-- `u` times infinity: a NaN at `raw = 0` (R83 d). -/
theorem fmul_dblU_inf (raw : Word) : fmul (dblU raw) (.inf false) = if raw = 0#32 then .nan else .inf false := by
  rw [(dblU_eq raw).1]
  show (if _ = 0 then _ else _) = _
  by_cases h : raw = 0#32
  · rw [if_pos ((dblU_zero_iff raw).mpr h), if_pos h]
  · rw [if_neg (mt (dblU_zero_iff raw).mp h), if_neg h]; rfl

/-- The pattern of 1.0. -/
theorem unpack_dblOne : unpack Params.dblOne = .fin false unitsPerOne := by decide +kernel

/-- Subtracting `+0` changes nothing. -/
theorem fsub_zero {b : Bool} {m : Nat} (hr : Representable m) (hl : m < magLimit) (hm : 0 < m) : fsub (.fin b m) (.fin false 0) = .fin b m := by
  show fadd (.fin b m) (.fin true 0) = _
  rw [fadd_fin, fin_eq_roundedSum hr hl]
  have : signedMag b m + signedMag true 0 = signedMag b m := by simp [signedMag]
  rw [this]
  unfold roundedSum
  have : signedMag b m ≠ 0 := by cases b <;> simp [signedMag] <;> omega
  rw [if_neg this, if_neg this]

/-- Adding `+0` to a datum that is not negative changes nothing (R83 g). -/
theorem fadd_zero {m : Nat} (hr : Representable m) (hl : m < magLimit) : fadd (.fin false m) (.fin false 0) = .fin false m := by
  rw [fadd_fin, fin_eq_roundedSum hr hl]
  simp [signedMag]

/-- Multiplying by 1.0 changes nothing (R83 g). -/
theorem fmul_one {m : Nat} (hr : Representable m) (hl : m < magLimit) : fmul (.fin false m) (.fin false unitsPerOne) = .fin false m := by
  show ofMag _ (roundMag (m * unitsPerOne) unitsPerOne) = _
  rw [roundMag_exact unitsPerOne_pos hr, ofMag, if_neg (by omega)]; rfl

end Sys2Proof.Machine
end

