-- ==== Sys2Proof/Laws/Decode.lean ====
section
/-!
SUPPORT. The decoder, one lemma per opcode (30_encoding.md R41), so that no proof unfolds the whole match; the bits of a
command word are those of its four fields.
-/

namespace Sys2Proof

variable {w : Cmd}

theorem decode_seed (h : opOf w = 0x01#8) : decode w = some (.seed (seedOf w)) := by unfold decode; rw [h]; rfl
theorem decode_mix (h : opOf w = 0x02#8) : decode w = some (.mix (seedOf w)) := by unfold decode; rw [h]; rfl
theorem decode_next (h : opOf w = 0x10#8) : decode w = some .next := by unfold decode; rw [h]; rfl
theorem decode_nextm (h : opOf w = 0x11#8) : decode w = some (.nextm (bIntOf w)) := by unfold decode; rw [h]; rfl
theorem decode_nextr (h : opOf w = 0x12#8) : decode w = some (.nextr (aIntOf w) (bIntOf w)) := by unfold decode; rw [h]; rfl
theorem decode_nextb (h : opOf w = 0x13#8) : decode w = some .nextb := by unfold decode; rw [h]; rfl
theorem decode_nextd (h : opOf w = 0x18#8) : decode w = some .nextd := by unfold decode; rw [h]; rfl
theorem decode_nextdm (h : opOf w = 0x19#8) : decode w = some (.nextdm (bOf w)) := by unfold decode; rw [h]; rfl
theorem decode_nextdr (h : opOf w = 0x1A#8) : decode w = some (.nextdr (aOf w) (bOf w)) := by unfold decode; rw [h]; rfl
theorem decode_snext (h : opOf w = 0x30#8) : decode w = some (.snext (seedOf w)) := by unfold decode; rw [h]; rfl
theorem decode_snextm (h : opOf w = 0x31#8) : decode w = some (.snextm (seedOf w) (bIntOf w)) := by unfold decode; rw [h]; rfl
theorem decode_snextr (h : opOf w = 0x32#8) : decode w = some (.snextr (seedOf w) (aIntOf w) (bIntOf w)) := by unfold decode; rw [h]; rfl
theorem decode_snextd (h : opOf w = 0x38#8) : decode w = some (.snextd (seedOf w)) := by unfold decode; rw [h]; rfl
theorem decode_snextdm (h : opOf w = 0x39#8) : decode w = some (.snextdm (seedOf w) (bOf w)) := by unfold decode; rw [h]; rfl
theorem decode_snextdr (h : opOf w = 0x3A#8) : decode w = some (.snextdr (seedOf w) (aOf w) (bOf w)) := by unfold decode; rw [h]; rfl

/-- The decoder, as a chain of tests. -/
theorem decode_eq (w : Cmd) : decode w =
    if opOf w = 0x01#8 then some (.seed (seedOf w)) else
    if opOf w = 0x02#8 then some (.mix (seedOf w)) else
    if opOf w = 0x10#8 then some .next else
    if opOf w = 0x11#8 then some (.nextm (bIntOf w)) else
    if opOf w = 0x12#8 then some (.nextr (aIntOf w) (bIntOf w)) else
    if opOf w = 0x13#8 then some .nextb else
    if opOf w = 0x18#8 then some .nextd else
    if opOf w = 0x19#8 then some (.nextdm (bOf w)) else
    if opOf w = 0x1A#8 then some (.nextdr (aOf w) (bOf w)) else
    if opOf w = 0x30#8 then some (.snext (seedOf w)) else
    if opOf w = 0x31#8 then some (.snextm (seedOf w) (bIntOf w)) else
    if opOf w = 0x32#8 then some (.snextr (seedOf w) (aIntOf w) (bIntOf w)) else
    if opOf w = 0x38#8 then some (.snextd (seedOf w)) else
    if opOf w = 0x39#8 then some (.snextdm (seedOf w) (bOf w)) else
    if opOf w = 0x3A#8 then some (.snextdr (seedOf w) (aOf w) (bOf w)) else
    none := by
  by_cases h0 : opOf w = 0x01#8
  · rw [if_pos h0]; exact decode_seed h0
  rw [if_neg h0]
  by_cases h1 : opOf w = 0x02#8
  · rw [if_pos h1]; exact decode_mix h1
  rw [if_neg h1]
  by_cases h2 : opOf w = 0x10#8
  · rw [if_pos h2]; exact decode_next h2
  rw [if_neg h2]
  by_cases h3 : opOf w = 0x11#8
  · rw [if_pos h3]; exact decode_nextm h3
  rw [if_neg h3]
  by_cases h4 : opOf w = 0x12#8
  · rw [if_pos h4]; exact decode_nextr h4
  rw [if_neg h4]
  by_cases h5 : opOf w = 0x13#8
  · rw [if_pos h5]; exact decode_nextb h5
  rw [if_neg h5]
  by_cases h6 : opOf w = 0x18#8
  · rw [if_pos h6]; exact decode_nextd h6
  rw [if_neg h6]
  by_cases h7 : opOf w = 0x19#8
  · rw [if_pos h7]; exact decode_nextdm h7
  rw [if_neg h7]
  by_cases h8 : opOf w = 0x1A#8
  · rw [if_pos h8]; exact decode_nextdr h8
  rw [if_neg h8]
  by_cases h9 : opOf w = 0x30#8
  · rw [if_pos h9]; exact decode_snext h9
  rw [if_neg h9]
  by_cases h10 : opOf w = 0x31#8
  · rw [if_pos h10]; exact decode_snextm h10
  rw [if_neg h10]
  by_cases h11 : opOf w = 0x32#8
  · rw [if_pos h11]; exact decode_snextr h11
  rw [if_neg h11]
  by_cases h12 : opOf w = 0x38#8
  · rw [if_pos h12]; exact decode_snextd h12
  rw [if_neg h12]
  by_cases h13 : opOf w = 0x39#8
  · rw [if_pos h13]; exact decode_snextdm h13
  rw [if_neg h13]
  by_cases h14 : opOf w = 0x3A#8
  · rw [if_pos h14]; exact decode_snextdr h14
  rw [if_neg h14]
  unfold decode
  split
  · exact absurd (BitVec.eq_of_toNat_eq ‹_›) h0
  · exact absurd (BitVec.eq_of_toNat_eq ‹_›) h1
  · exact absurd (BitVec.eq_of_toNat_eq ‹_›) h2
  · exact absurd (BitVec.eq_of_toNat_eq ‹_›) h3
  · exact absurd (BitVec.eq_of_toNat_eq ‹_›) h4
  · exact absurd (BitVec.eq_of_toNat_eq ‹_›) h5
  · exact absurd (BitVec.eq_of_toNat_eq ‹_›) h6
  · exact absurd (BitVec.eq_of_toNat_eq ‹_›) h7
  · exact absurd (BitVec.eq_of_toNat_eq ‹_›) h8
  · exact absurd (BitVec.eq_of_toNat_eq ‹_›) h9
  · exact absurd (BitVec.eq_of_toNat_eq ‹_›) h10
  · exact absurd (BitVec.eq_of_toNat_eq ‹_›) h11
  · exact absurd (BitVec.eq_of_toNat_eq ‹_›) h12
  · exact absurd (BitVec.eq_of_toNat_eq ‹_›) h13
  · exact absurd (BitVec.eq_of_toNat_eq ‹_›) h14
  · rfl

/-- A command word is its four fields (R35). -/
theorem packCmd_fields (w : Cmd) : packCmd (opOf w) (seedOf w) (aOf w) (bOf w) = w := by
  apply BitVec.eq_of_getLsbD_eq
  intro i hi
  rw [getLsbD_packCmd]
  have field : ∀ k n j, j < n → (w.extractLsb' k n).getLsbD j = w.getLsbD (k + j) := by
    intro k n j hj
    rw [BitVec.getLsbD_extractLsb', decide_eq_true hj, Bool.true_and]
  by_cases h1 : i < 64
  · rw [if_pos h1]
    exact (field 0 64 i h1).trans (by rw [Nat.zero_add])
  rw [if_neg h1]
  by_cases h2 : i < 128
  · rw [if_pos h2]
    exact (field 64 64 _ (by omega)).trans (by rw [Nat.add_sub_cancel' (by omega)])
  rw [if_neg h2]
  by_cases h3 : i < 160
  · rw [if_pos h3]
    exact (field 128 32 _ (by omega)).trans (by rw [Nat.add_sub_cancel' (by omega)])
  · rw [if_neg h3]
    exact (field 160 8 _ (by omega)).trans (by rw [Nat.add_sub_cancel' (by omega)])

end Sys2Proof
end

