-- ==== Sys2Proof/Laws/Encoding.lean ====
section
/-!
SUPPORT. The decoder and the encoder together: which words decode (30_encoding.md R41, R42), and what the encoder writes
for a word that does (R40, R46).
-/

namespace Sys2Proof

variable {w : Cmd} {i : Instr}

/-- The illegal words are those whose opcode is none of the fifteen (R42). -/
theorem decode_none_iff (w : Cmd) : decode w = none ↔ opLegal (opOf w) = false := by
  constructor
  · intro h
    have h' := decode_eq w
    rw [h] at h'
    by_contra hl
    have hl : opOf w ∈ legalOps := by
      rw [opLegal] at hl; simpa only [Bool.not_eq_false, List.contains_iff_mem] using hl
    simp only [legalOps, List.mem_cons, List.not_mem_nil, or_false] at hl
    rcases hl with e | e | e | e | e | e | e | e | e | e | e | e | e | e | e <;> rw [e] at h' <;> simp at h'
  · intro h
    have hn : ∀ o ∈ legalOps, opOf w ≠ o := by
      rintro o ho rfl
      rw [opLegal, ← Bool.not_eq_true, List.contains_iff_mem] at h
      exact h ho
    have h' := decode_eq w
    simp only [legalOps, List.forall_mem_cons] at hn
    obtain ⟨h0, h1, h2, h3, h4, h5, h6, h7, h8, h9, h10, h11, h12, h13, h14, -⟩ := hn
    simpa only [h0, h1, h2, h3, h4, h5, h6, h7, h8, h9, h10, h11, h12, h13, h14, if_false] using h'

/-- Every way a word can decode (R41). -/
theorem decode_some_cases (h : decode w = some i) :
    (opOf w = 0x01#8 ∧ i = .seed (seedOf w)) ∨
    (opOf w = 0x02#8 ∧ i = .mix (seedOf w)) ∨
    (opOf w = 0x10#8 ∧ i = .next) ∨
    (opOf w = 0x11#8 ∧ i = .nextm (bIntOf w)) ∨
    (opOf w = 0x12#8 ∧ i = .nextr (aIntOf w) (bIntOf w)) ∨
    (opOf w = 0x13#8 ∧ i = .nextb) ∨
    (opOf w = 0x18#8 ∧ i = .nextd) ∨
    (opOf w = 0x19#8 ∧ i = .nextdm (bOf w)) ∨
    (opOf w = 0x1A#8 ∧ i = .nextdr (aOf w) (bOf w)) ∨
    (opOf w = 0x30#8 ∧ i = .snext (seedOf w)) ∨
    (opOf w = 0x31#8 ∧ i = .snextm (seedOf w) (bIntOf w)) ∨
    (opOf w = 0x32#8 ∧ i = .snextr (seedOf w) (aIntOf w) (bIntOf w)) ∨
    (opOf w = 0x38#8 ∧ i = .snextd (seedOf w)) ∨
    (opOf w = 0x39#8 ∧ i = .snextdm (seedOf w) (bOf w)) ∨
    (opOf w = 0x3A#8 ∧ i = .snextdr (seedOf w) (aOf w) (bOf w)) := by
  have hl : opOf w ∈ legalOps := by
    have hn := mt (decode_none_iff w).mpr (by rw [h]; simp)
    rw [opLegal] at hn
    simpa only [Bool.not_eq_false, List.contains_iff_mem] using hn
  simp only [legalOps, List.mem_cons, List.not_mem_nil, or_false] at hl
  have key : ∀ j, decode w = some j → i = j := fun j hj => Option.some.inj (h.symm.trans hj)
  rcases hl with e | e | e | e | e | e | e | e | e | e | e | e | e | e | e
  · exact .inl ⟨e, key _ (decode_seed e)⟩
  · exact .inr (.inl ⟨e, key _ (decode_mix e)⟩)
  · exact .inr (.inr (.inl ⟨e, key _ (decode_next e)⟩))
  · exact .inr (.inr (.inr (.inl ⟨e, key _ (decode_nextm e)⟩)))
  · exact .inr (.inr (.inr (.inr (.inl ⟨e, key _ (decode_nextr e)⟩))))
  · exact .inr (.inr (.inr (.inr (.inr (.inl ⟨e, key _ (decode_nextb e)⟩)))))
  · exact .inr (.inr (.inr (.inr (.inr (.inr (.inl ⟨e, key _ (decode_nextd e)⟩))))))
  · exact .inr (.inr (.inr (.inr (.inr (.inr (.inr (.inl ⟨e, key _ (decode_nextdm e)⟩)))))))
  · exact .inr (.inr (.inr (.inr (.inr (.inr (.inr (.inr (.inl ⟨e, key _ (decode_nextdr e)⟩))))))))
  · exact .inr (.inr (.inr (.inr (.inr (.inr (.inr (.inr (.inr (.inl ⟨e, key _ (decode_snext e)⟩)))))))))
  · exact .inr (.inr (.inr (.inr (.inr (.inr (.inr (.inr (.inr (.inr (.inl ⟨e, key _ (decode_snextm e)⟩))))))))))
  · exact .inr (.inr (.inr (.inr (.inr (.inr (.inr (.inr (.inr (.inr (.inr (.inl ⟨e, key _ (decode_snextr e)⟩)))))))))))
  · exact .inr (.inr (.inr (.inr (.inr (.inr (.inr (.inr (.inr (.inr (.inr (.inr (.inl ⟨e, key _ (decode_snextd e)⟩))))))))))))
  · exact .inr (.inr (.inr (.inr (.inr (.inr (.inr (.inr (.inr (.inr (.inr (.inr (.inr (.inl ⟨e, key _ (decode_snextdm e)⟩)))))))))))))
  · exact .inr (.inr (.inr (.inr (.inr (.inr (.inr (.inr (.inr (.inr (.inr (.inr (.inr (.inr (⟨e, key _ (decode_snextdr e)⟩))))))))))))))

/-- The opcode of a decoded command is the word's (R35, R41). -/
theorem opcode_of_decode (h : decode w = some i) : opcode i = opOf w := by
  rcases decode_some_cases h with h | h | h | h | h | h | h | h | h | h | h | h | h | h | h <;>
    obtain ⟨e, rfl⟩ := h <;> rw [e] <;> rfl

/-- A bitwise and of command words is taken field by field. -/
theorem and_packCmd (o o' : BitVec 8) (s s' : Word) (a a' b b' : Wide) :
    packCmd o s a b &&& packCmd o' s' a' b' = packCmd (o &&& o') (s &&& s') (a &&& a') (b &&& b') := by
  apply BitVec.eq_of_getLsbD_eq
  intro k hk
  rw [BitVec.getLsbD_and]
  simp only [getLsbD_packCmd]
  split_ifs <;> simp only [BitVec.getLsbD_and]

theorem and_ones8 (a : BitVec 8) : a &&& 0xFF#8 = a := BitVec.and_allOnes
theorem and_ones32 (a : Word) : a &&& 0xFFFFFFFF#32 = a := BitVec.and_allOnes
theorem and_ones64 (a : Wide) : a &&& 0xFFFFFFFFFFFFFFFF#64 = a := BitVec.and_allOnes

/-- The low half of a 64-bit field, as the assembler writes an integer bound (R37, R46). -/
theorem and_low32 (a : Wide) : a &&& 0xFFFFFFFF#64 = intField (a.extractLsb' 0 32) := by
  apply BitVec.eq_of_getLsbD_eq
  intro k hk
  rw [BitVec.getLsbD_and, intField, BitVec.getLsbD_setWidth, BitVec.getLsbD_extractLsb', Nat.zero_add,
    show (0xFFFFFFFF#64).getLsbD k = decide (k < 32) by revert k; decide]
  simp only [hk, decide_true, Bool.true_and, Bool.and_comm]

/-- The used bits of a word, field by field. -/
theorem and_fields (w : Cmd) (s : Word) (a b : Wide) :
    w &&& packCmd 0xFF#8 s a b = packCmd (opOf w) (seedOf w &&& s) (aOf w &&& a) (bOf w &&& b) := by
  conv_lhs => rw [← packCmd_fields w]
  rw [and_packCmd, and_ones8]

/-- The encoder writes the used bits of the word it was decoded from, and zero elsewhere (R40, R46). -/
theorem encode_of_decode (h : decode w = some i) : encode i = w &&& i.usedBits := by
  rcases decode_some_cases h with h | h | h | h | h | h | h | h | h | h | h | h | h | h | h <;> obtain ⟨e, rfl⟩ := h
  · exact ((and_fields w 0xFFFFFFFF#32 0#64 0#64).trans (by simp only [e, and_ones32, BitVec.and_zero]; rfl)).symm
  · exact ((and_fields w 0xFFFFFFFF#32 0#64 0#64).trans (by simp only [e, and_ones32, BitVec.and_zero]; rfl)).symm
  · exact ((and_fields w 0#32 0#64 0#64).trans (by simp only [e, BitVec.and_zero]; rfl)).symm
  · exact ((and_fields w 0#32 0#64 0xFFFFFFFF#64).trans (by simp only [e, and_low32, BitVec.and_zero]; rfl)).symm
  · exact ((and_fields w 0#32 0xFFFFFFFF#64 0xFFFFFFFF#64).trans (by simp only [e, and_low32, BitVec.and_zero]; rfl)).symm
  · exact ((and_fields w 0#32 0#64 0#64).trans (by simp only [e, BitVec.and_zero]; rfl)).symm
  · exact ((and_fields w 0#32 0#64 0#64).trans (by simp only [e, BitVec.and_zero]; rfl)).symm
  · exact ((and_fields w 0#32 0#64 0xFFFFFFFFFFFFFFFF#64).trans (by simp only [e, and_ones64, BitVec.and_zero]; rfl)).symm
  · exact ((and_fields w 0#32 0xFFFFFFFFFFFFFFFF#64 0xFFFFFFFFFFFFFFFF#64).trans (by simp only [e, and_ones64, BitVec.and_zero]; rfl)).symm
  · exact ((and_fields w 0xFFFFFFFF#32 0#64 0#64).trans (by simp only [e, and_ones32, BitVec.and_zero]; rfl)).symm
  · exact ((and_fields w 0xFFFFFFFF#32 0#64 0xFFFFFFFF#64).trans (by simp only [e, and_ones32, and_low32, BitVec.and_zero]; rfl)).symm
  · exact ((and_fields w 0xFFFFFFFF#32 0xFFFFFFFF#64 0xFFFFFFFF#64).trans (by simp only [e, and_ones32, and_low32]; rfl)).symm
  · exact ((and_fields w 0xFFFFFFFF#32 0#64 0#64).trans (by simp only [e, and_ones32, BitVec.and_zero]; rfl)).symm
  · exact ((and_fields w 0xFFFFFFFF#32 0#64 0xFFFFFFFFFFFFFFFF#64).trans (by simp only [e, and_ones32, and_ones64, BitVec.and_zero]; rfl)).symm
  · exact ((and_fields w 0xFFFFFFFF#32 0xFFFFFFFFFFFFFFFF#64 0xFFFFFFFFFFFFFFFF#64).trans (by simp only [e, and_ones32, and_ones64]; rfl)).symm

/-- A word is canonical when it has no bit outside the used ones (R40). -/
theorem wordCanonical_iff (i : Instr) (w : Cmd) : i.wordCanonical w = true ↔ w &&& i.usedBits = w := by
  unfold Instr.wordCanonical
  rw [beq_iff_eq]
  generalize i.usedBits = u
  have split : w &&& u ||| w &&& ~~~u = w := by
    apply BitVec.eq_of_getLsbD_eq
    intro k hk
    simp only [BitVec.getLsbD_or, BitVec.getLsbD_and, BitVec.getLsbD_not, hk, decide_true, Bool.true_and]
    cases w.getLsbD k <;> cases u.getLsbD k <;> rfl
  constructor
  · intro h
    rw [h] at split
    simpa using split
  · intro h
    rw [← h, BitVec.and_assoc, BitVec.and_not_self]
    simp

end Sys2Proof
end

