-- ==== Sys2Proof/Laws/PerInstr.lean ====
section
/-!
SUPPORT. What is said of every command, one lemma per constructor: the encoder writes the opcode that 30_encoding.md R41
gives the command.
-/

namespace Sys2Proof.Laws.EncodedOp

/-- The opcode field of the encoded command is the command's opcode. -/
def Statement (i : Instr) : Prop := opOf (encode i) = opcode i

theorem seed (s : Word) : Statement (.seed s) := opOf_packCmd _ _ _ _
theorem mix (s : Word) : Statement (.mix s) := opOf_packCmd _ _ _ _
theorem next : Statement .next := opOf_packCmd _ _ _ _
theorem nextm (hi : Word) : Statement (.nextm hi) := opOf_packCmd _ _ _ _
theorem nextr (lo : Word) (hi : Word) : Statement (.nextr lo hi) := opOf_packCmd _ _ _ _
theorem nextb : Statement .nextb := opOf_packCmd _ _ _ _
theorem nextd : Statement .nextd := opOf_packCmd _ _ _ _
theorem nextdm (hi : Wide) : Statement (.nextdm hi) := opOf_packCmd _ _ _ _
theorem nextdr (lo : Wide) (hi : Wide) : Statement (.nextdr lo hi) := opOf_packCmd _ _ _ _
theorem snext (s : Word) : Statement (.snext s) := opOf_packCmd _ _ _ _
theorem snextm (s : Word) (hi : Word) : Statement (.snextm s hi) := opOf_packCmd _ _ _ _
theorem snextr (s : Word) (lo : Word) (hi : Word) : Statement (.snextr s lo hi) := opOf_packCmd _ _ _ _
theorem snextd (s : Word) : Statement (.snextd s) := opOf_packCmd _ _ _ _
theorem snextdm (s : Word) (hi : Wide) : Statement (.snextdm s hi) := opOf_packCmd _ _ _ _
theorem snextdr (s : Word) (lo : Wide) (hi : Wide) : Statement (.snextdr s lo hi) := opOf_packCmd _ _ _ _

end Sys2Proof.Laws.EncodedOp
end

