-- ==== Sys2Proof/Tests/Slice0.lean ====
section
/-!
SUPPORT. The model's own tests. Expected values are the spec's: the vectors of 95_test_vectors.md (the row is named beside
each), the examples of 30_encoding.md, 41_range_conversion.md and 42_stateful_draws.md. Then, for every statement of
Certificates/Slice0/Obligations.lean that has hypotheses, a witness that meets them.
-/

set_option Elab.async false

namespace Sys2Proof.Tests

open Sys2Proof Sys2Proof.Machine

/-! ### WellFormed refuses ill-formed terms -/

theorem test_illegal_opcode_refused : opLegal 0x00#8 = false ∧ opLegal 0x33#8 = false ∧ opLegal 0x1B#8 = false := by decide
theorem test_stray_bit_is_not_canonical :
    (Instr.nextm 10#32).wordCanonical 0x11_DEADBEEF_FFFFFFFFFFFFFFFF_FFFFFFFF0000000A#168 = false := by decide
theorem test_error_code_3_refused : rspLegal 0x3_0000000000000000#66 = false := by decide
theorem test_data_beside_an_error_refused : rspLegal 0x1_0000000000000001#66 = false := by decide
theorem test_infinity_is_no_nan_pattern : nanPatternOk 0x7FF0000000000000#64 = false := by decide
theorem test_number_is_no_nan_pattern : nanPatternOk 0x3FF8000000000000#64 = false := by decide

/-! ### Decoding words written out from the encoding (30 R35, R41) -/

theorem test_decode_seed : decode 0x01_FFFFFFFF_0000000000000000_0000000000000000#168 = some (.seed 0xFFFFFFFF#32) := by decide
theorem test_decode_mix : decode 0x02_00000001_0000000000000000_0000000000000000#168 = some (.mix 1#32) := by decide
theorem test_decode_next : decode 0x10_00000000_0000000000000000_0000000000000000#168 = some .next := by decide
/-- V-ERR, "Ignored bits". -/
theorem test_decode_nextm : decode 0x11_DEADBEEF_FFFFFFFFFFFFFFFF_FFFFFFFF0000000A#168 = some (.nextm 10#32) := by decide
theorem test_decode_nextr :
    decode 0x12_00000000_00000000FFFFFF9C_0000000000000064#168 = some (.nextr 0xFFFFFF9C#32 100#32) := by decide
theorem test_decode_nextb : decode 0x13_00000000_0000000000000000_0000000000000000#168 = some .nextb := by decide
theorem test_decode_nextd : decode 0x18_00000000_0000000000000000_0000000000000000#168 = some .nextd := by decide
theorem test_decode_nextdm :
    decode 0x19_00000000_0000000000000000_4024000000000000#168 = some (.nextdm 0x4024000000000000#64) := by decide
theorem test_decode_nextdr :
    decode 0x1A_00000000_BFF0000000000000_3FF0000000000000#168 =
      some (.nextdr 0xBFF0000000000000#64 0x3FF0000000000000#64) := by decide
theorem test_decode_snext : decode 0x30_00000001_0000000000000000_0000000000000000#168 = some (.snext 1#32) := by decide
theorem test_decode_snextm :
    decode 0x31_FFFFFFFF_0000000000000000_0000000000000100#168 = some (.snextm 0xFFFFFFFF#32 256#32) := by decide
theorem test_decode_snextr :
    decode 0x32_00000001_0000000000000005_000000000000000F#168 = some (.snextr 1#32 5#32 15#32) := by decide
theorem test_decode_snextd : decode 0x38_00000001_0000000000000000_0000000000000000#168 = some (.snextd 1#32) := by decide
theorem test_decode_snextdm :
    decode 0x39_00000001_0000000000000000_4024000000000000#168 = some (.snextdm 1#32 0x4024000000000000#64) := by decide
theorem test_decode_snextdr :
    decode 0x3A_00000001_BFF0000000000000_3FF0000000000000#168 =
      some (.snextdr 1#32 0xBFF0000000000000#64 0x3FF0000000000000#64) := by decide
/-- V-ERR 13 to 17. -/
theorem test_decode_illegal :
    decode 0x00_00000000_0000000000000000_0000000000000000#168 = none ∧
    decode 0x33_00000007_0000000000000000_0000000000000000#168 = none ∧
    decode 0x21_00000007_0000000000000000_0000000000000000#168 = none ∧
    decode 0x90_00000000_0000000000000000_0000000000000000#168 = none ∧
    decode 0x1B_00000000_0000000000000000_0000000000000000#168 = none := by decide
theorem test_table_word : decodeTableWord 168 0x32_00000001_0000000000000005_000000000000000F =
    some (.snextr 1#32 5#32 15#32) := by decide
/-- V-INT 17. -/
theorem test_encode_snextr :
    encode (.snextr 0xDEADBEEF#32 0xFFFFFF9C#32 100#32) = 0x32_DEADBEEF_00000000FFFFFF9C_0000000000000064#168 := by decide

/-! ### The response word (30 R43) -/

theorem test_response_words :
    okWord 0x5C661378#64 = 0x0_000000005C661378#66 ∧ invalidRangeWord = 0x1_0000000000000000#66 ∧
    illegalOpWord = 0x2_0000000000000000#66 := by decide

/-! ### One command each -/

/-- A state with the given `STATE` and the given words presented. -/
def st (x : Word) (ws : List Cmd) : State := ⟨x, ws, [], [], 0, 1⟩

/-- `STATE` and the responses after an outcome. -/
def seen : Host.Outcome State Fault Refusal → Option (Word × List Rsp)
  | .next t => some (t.STATE, t.rsps)
  | .fault _ => none
  | .refused _ => none

/-- `STATE` and the count of NaN patterns after an outcome. -/
def nans : Host.Outcome State Fault Refusal → Option (Word × Nat)
  | .next t => some (t.STATE, t.nanDraws)
  | .fault _ => none
  | .refused _ => none

/-- P1 #0. -/
theorem test_seed : seen (exec (.seed 0#32) (st 7#32 [])) = some (0#32, [okWord 0#64]) := by decide +kernel
/-- V-T. -/
theorem test_mix : seen (exec (.mix 0xDEADBEEF#32) (st 7#32 [])) = some (7#32, [okWord 0x87D78801#64]) := by decide +kernel
/-- V-T: the smallest seed at which the addition wraps. -/
theorem test_mix_wraps : seen (exec (.mix 0x1EDF03EB#32) (st 7#32 [])) = some (7#32, [okWord 0#64]) := by decide +kernel
/-- 42 R92, example. -/
theorem test_next : seen (exec .next (st 1#32 [])) = some (0xDC661379#32, [okWord 0x5C661378#64]) := by decide +kernel
/-- V-INT 4. -/
theorem test_next_at_int32Max :
    seen (exec .next (st 0xA7326C55#32 [])) = some (0x7FFFFFFF#32, [okWord 0#64]) := by decide +kernel
/-- P1 #2. -/
theorem test_nextm : seen (exec (.nextm 10#32) (st 0x1322D6D0#32 [])) = some (0x3F10A9AA#32, [okWord 8#64]) := by decide +kernel
/-- V-ERR 4: a signed bound. -/
theorem test_nextm_invalid :
    seen (exec (.nextm 0xFFFFFFFF#32) (st 7#32 [])) = some (7#32, [invalidRangeWord]) := by decide +kernel
/-- 42 R94, example. -/
theorem test_nextr :
    seen (exec (.nextr 0xFFFFFF9C#32 100#32) (st 1#32 [])) = some (0xDC661379#32, [okWord 0xFFFFFFED#64]) := by decide +kernel
/-- V-ERR 5: the wrapped difference must not be used. -/
theorem test_nextr_invalid :
    seen (exec (.nextr 0x7FFFFFFF#32 0x80000000#32) (st 7#32 [])) = some (7#32, [invalidRangeWord]) := by decide +kernel
/-- V-B. -/
theorem test_nextb : seen (exec .nextb (st 0x1EDF03EA#32 [])) = some (0xFFFFFFFF#32, [okWord 0xFE#64]) := by decide +kernel
/-- V-B. -/
theorem test_nextb_converted :
    seen (exec .nextb (st 0xA7326C55#32 [])) = some (0x7FFFFFFF#32, [okWord 0x00#64]) := by decide +kernel
/-- 42 R96, example. -/
theorem test_nextd :
    seen (exec .nextd (st 0#32 [])) = some (0x1322D6D0#32, [okWord 0x3FB322D6D01322D7#64]) := by decide +kernel
/-- P5 #5: exactly 1.0. -/
theorem test_nextd_one :
    seen (exec .nextd (st 0x1EDF03EA#32 [])) = some (0xFFFFFFFF#32, [okWord 0x3FF0000000000000#64]) := by decide +kernel
/-- P3 #4. -/
theorem test_nextdm : seen (exec (.nextdm 0x4024000000000000#64) (st 0x1E7FAEE7#32 [])) =
    some (0xAEAB94C6#32, [okWord 0x401B4ACF3F0B4AD0#64]) := by decide +kernel
/-- V-ERR 10. -/
theorem test_nextdm_minus_zero :
    seen (exec (.nextdm 0x8000000000000000#64) (st 7#32 [])) = some (7#32, [invalidRangeWord]) := by decide +kernel
/-- 42 R98, example. -/
theorem test_nextdr : seen (exec (.nextdr 0xBFF0000000000000#64 0x3FF0000000000000#64) (st 0#32 [])) =
    some (0x1322D6D0#32, [okWord 0xBFEB374A4BFB374A#64]) := by decide +kernel
/-- V-ERR 7. -/
theorem test_nextdr_invalid : seen (exec (.nextdr 0x4014000000000000#64 0x4014000000000000#64) (st 7#32 [])) =
    some (7#32, [invalidRangeWord]) := by decide +kernel
/-- V-INT 6. -/
theorem test_snext : seen (exec (.snext 0x7FFFFFFF#32) (st 7#32 [])) = some (7#32, [okWord 0x35774A1B#64]) := by decide +kernel
/-- V-INT 10. -/
theorem test_snextm :
    seen (exec (.snextm 0xFFFFFFFF#32 256#32) (st 7#32 [])) = some (7#32, [okWord 0x76#64]) := by decide +kernel
/-- V-INT 19: the widest range. -/
theorem test_snextr : seen (exec (.snextr 1#32 0x80000000#32 0x7FFFFFFF#32) (st 7#32 [])) =
    some (7#32, [okWord 0x5C661378#64]) := by decide +kernel
/-- V-INT 15: zero extension of a negative result. -/
theorem test_snextr_negative : seen (exec (.snextr 1#32 0xFFFFFFF6#32 10#32) (st 7#32 [])) =
    some (7#32, [okWord 0x00000000FFFFFFF7#64]) := by decide +kernel
/-- V-DBL 5. -/
theorem test_snextd : seen (exec (.snextd 2#32) (st 7#32 [])) = some (7#32, [okWord 0x3FD2C6B2DD52C6B3#64]) := by decide +kernel
/-- V-DBL 16: the product underflows to zero. -/
theorem test_snextdm_underflow : seen (exec (.snextdm 0#32 1#64) (st 7#32 [])) = some (7#32, [okWord 0#64]) := by decide +kernel
/-- V-DBL 17. -/
theorem test_snextdm_subnormal : seen (exec (.snextdm 1#32 1#64) (st 7#32 [])) = some (7#32, [okWord 1#64]) := by decide +kernel
/-- V-DBL 15: a result above `max`. -/
theorem test_snextdr_above_max :
    seen (exec (.snextdr 0x1EDF03EA#32 0xBFB999999999999A#64 0x3FC999999999999A#64) (st 7#32 [])) =
      some (7#32, [okWord 0x3FC999999999999B#64]) := by decide +kernel
/-- V-DBL 23: the difference overflows. -/
theorem test_snextdr_overflow :
    seen (exec (.snextdr 0#32 0xFFEFFFFFFFFFFFFF#64 0x7FEFFFFFFFFFFFFF#64) (st 7#32 [])) =
      some (7#32, [okWord 0x7FF0000000000000#64]) := by decide +kernel
/-- V-DBL 20 to 22: NaN results, of which the pattern is free. -/
theorem test_nan_results :
    nans (exec (.snextdr 0#32 0xFFF0000000000000#64 0x7FF0000000000000#64) (st 7#32 [])) = some (7#32, 1) ∧
    nans (exec (.snextdr 0#32 0x7FF8000000000000#64 0x3FF0000000000000#64) (st 7#32 [])) = some (7#32, 1) ∧
    nans (exec (.nextdm 0x7FF8000000000000#64) (st 1#32 [])) = some (0xDC661379#32, 1) := by decide +kernel

/-! ### The converter alone -/

/-- V-INT, column (-7, -3), under both conventions of the remainder. -/
theorem test_remainder_conventions :
    convIntWith .euclid 0xDC661379#32 0xFFFFFFF9#32 0xFFFFFFFD#32 = some (BitVec.ofInt 32 (-6)) ∧
    convIntWith .trunc 0xDC661379#32 0xFFFFFFF9#32 0xFFFFFFFD#32 = some (BitVec.ofInt 32 (-10)) ∧
    convIntWith .trunc 0x7FFFFFFF#32 0xFFFFFFF9#32 0xFFFFFFFD#32 = some (BitVec.ofInt 32 (-4)) := by decide +kernel
/-- V-INT, row 80000000, column (0, I). -/
theorem test_convInt_most_negative :
    convInt 0x80000000#32 0#32 0x7FFFFFFF#32 = some 2147483646#32 := by decide +kernel
/-- V-DBL, row 7FFFFFFF, column (-0.1, 0.2). -/
theorem test_convDbl :
    (convDbl 0x7FFFFFFF#32 0xBFB999999999999A#64 0x3FC999999999999A#64).map (pack 0#53) =
      some 0x3FA99999994CCCD0#64 := by decide +kernel
/-- The two powers of two that stand behind `unitsPerOne` and `magLimit`: 1.0 and 2^1024 in units of 2^-1074. -/
theorem test_units : unitsPerOne = 2 ^ 1074 ∧ magLimit = 2 ^ 2098 := by decide +kernel

/-! ### Steps -/

/-- P2 #6. -/
theorem test_step_illegal :
    seen (step (st 1#32 [0x33_00000007_0000000000000000_0000000000000000#168])) = some (1#32, [illegalOpWord]) := by
  decide +kernel
/-- 70 R136: nothing is accepted under reset. -/
theorem test_step_reset_keeps_command :
    (match step { st 1#32 [encode .next] with resetLine := [.asserted] } with
      | .next t => (t.cmds, t.rsps) | .fault _ => ([], []) | .refused _ => ([], [])) = ([encode .next], []) := by decide
/-- 70 R136: a command in flight is discarded. -/
theorem test_step_reset_discards :
    (match step { st 1#32 [encode .next] with resetLine := [.assertedMidCommand] } with
      | .next t => (t.cmds, t.rsps) | .fault _ => ([], [1#66]) | .refused _ => ([], [1#66])) = ([], []) := by decide
theorem test_placed_word_runs :
    seen (step ((st 1#32 []).withFetchWord 168 0x10_00000000_0000000000000000_0000000000000000)) =
      some (0xDC661379#32, [okWord 0x5C661378#64]) := by decide +kernel

/-! ### Witnesses: hypotheses that can be met, at the ends of their ranges -/

theorem witness_EncodeOfDecodedCanonicalWord :
    decode 0x12_00000000_00000000FFFFFF9C_0000000000000064#168 = some (.nextr 0xFFFFFF9C#32 100#32) ∧
    (Instr.nextr 0xFFFFFF9C#32 100#32).wordCanonical 0x12_00000000_00000000FFFFFF9C_0000000000000064#168 = true := by decide
theorem witness_IgnoredBitsHaveNoEffect :
    decode 0x11_00000000_0000000000000000_000000000000000A#168 = some (.nextm 10#32) ∧
    0x11_DEADBEEF_FFFFFFFFFFFFFFFF_FFFFFFFF0000000A#168 &&& (Instr.nextm 10#32).usedBits =
      0x11_00000000_0000000000000000_000000000000000A#168 &&& (Instr.nextm 10#32).usedBits ∧
    (st 1#32 []).resetLine = [] ∧ [ResetSample.released, .asserted].head? = some .released := by decide
theorem witness_IllegalOpcodesEndWithIllegalOp :
    opLegal (opOf 0x3B_00000000_0000000000000000_0000000000000000#168) = false ∧
    (st 1#32 [0x3B_00000000_0000000000000000_0000000000000000#168]).resetLine = [] ∧
    (st 1#32 [0x3B_00000000_0000000000000000_0000000000000000#168]).cmds =
      [0x3B_00000000_0000000000000000_0000000000000000#168] := by decide
theorem witness_StepRunsDecodedCommand :
    (st 1#32 [encode .next]).resetLine = [] ∧ (st 1#32 [encode .next]).cmds = encode .next :: [] ∧
    decode (encode .next) = some .next ∧
    ({ st 1#32 [encode .next] with resetLine := [.released] } : State).resetLine.head? = some .released := by decide
theorem witness_PlacedWordRunsNext :
    decodeTableWord 168 0x10_00000000_0000000000000000_0000000000000000 = some .next := by decide
theorem witness_OneResponsePerAcceptedCommand :
    (st 1#32 [encode (.seed 5#32)]).cmds = encode (.seed 5#32) :: [] ∧
    decode (encode (.seed 5#32)) = some (.seed 5#32) ∧ (st 1#32 []).cmds = [] ∧
    ({ st 1#32 [] with resetLine := [.asserted] } : State).resetLine.head? = some .asserted ∧
    ({ st 1#32 [] with resetLine := [.assertedMidCommand] } : State).resetLine.head? = some .assertedMidCommand := by decide
theorem witness_StepKeepsResponsesLegal :
    ResponsesLegal { st 1#32 [] with rsps := [invalidRangeWord] } ∧
    ∃ t, step { st 1#32 [] with rsps := [invalidRangeWord] } = .next t :=
  ⟨fun r hr => List.mem_singleton.mp hr ▸ rspLegal_invalidRangeWord,
    _, step_idle (fun ⟨_, h⟩ => by rcases h with h | h <;> cases h) rfl⟩
theorem witness_WritersOfSTATE :
    decode 0x33_00000007_0000000000000000_0000000000000000#168 = none ∧
    (st 1#32 [0x33_00000007_0000000000000000_0000000000000000#168]).cmds =
      0x33_00000007_0000000000000000_0000000000000000#168 :: [] := by decide
theorem witness_FrameOfEveryCommand :
    (∃ t, exec .next (st 1#32 []) = .next t) ∧ (opcode .next).getLsbD 3 = false := ⟨⟨_, rfl⟩, by decide⟩
theorem witness_InvalidRangeChangesNothing :
    rangeInvalid (.nextm 0#32) = true ∧ rangeInvalid (.nextm 1#32) = false ∧
    rangeInvalid (.nextr 5#32 5#32) = true ∧ rangeInvalid (.nextr 5#32 6#32) = false ∧
    rangeInvalid (.nextdm 0#64) = true ∧ rangeInvalid (.nextdm 1#64) = false ∧
    rangeInvalid (.nextdr 0x4014000000000000#64 0x4014000000000000#64) = true ∧
    rangeInvalid (.nextdr 0x4014000000000000#64 0x4014000000000001#64) = false ∧
    rangeInvalid (.snextdr 0#32 0x7FF8000000000000#64 0x3FF0000000000000#64) = false := by decide +kernel
theorem witness_draws :
    statefulDraw .nextb = true ∧ rangeInvalid .nextb = false ∧ statefulDraw (.mix 1#32) = false ∧
    statefulDraw (.nextm 0#32) = true ∧ rangeInvalid (.nextm 0#32) = true ∧ (∀ v, Instr.mix 1#32 ≠ .seed v) := by
  refine ⟨rfl, rfl, rfl, rfl, by decide, fun v h => by cases h⟩
/-- The same hypotheses as those of `NoPeekWithoutAdvance`, `DrawBeforeSeedIsNoError`, `StatelessCommandsArePure`. -/
theorem witness_SideEffectsOfCommands :
    ({ st 1#32 [] with rsps := [okWord 0#64] } : State).takeResponse = some (okWord 0#64, st 1#32 []) ∧
    rangeInvalid (.nextr 10#32 3#32) = true := by decide
theorem witness_ResetDiscardsTheCommandInFlight :
    ({ st 1#32 [encode .next] with resetLine := [.asserted] } : State).resetLine = .asserted :: [] ∧
    ({ st 1#32 [encode .next] with resetLine := [.assertedMidCommand] } : State).resetLine =
      .assertedMidCommand :: [] := by decide
theorem witness_opcodes :
    opOf (encode (.seed 1#32)) = 0x01#8 ∧ opOf (encode (.mix 1#32)) = 0x02#8 ∧ opOf (encode .next) = 0x10#8 ∧
    opOf (encode (.nextm 1#32)) = 0x11#8 ∧ opOf (encode (.nextr 0#32 1#32)) = 0x12#8 ∧ opOf (encode .nextb) = 0x13#8 ∧
    opOf (encode .nextd) = 0x18#8 ∧ opOf (encode (.nextdm 1#64)) = 0x19#8 ∧ opOf (encode (.nextdr 0#64 1#64)) = 0x1A#8 ∧
    opOf (encode (.snext 1#32)) = 0x30#8 ∧ opOf (encode (.snextm 1#32 1#32)) = 0x31#8 ∧
    opOf (encode (.snextr 1#32 0#32 1#32)) = 0x32#8 ∧ opOf (encode (.snextd 1#32)) = 0x38#8 ∧
    opOf (encode (.snextdm 1#32 1#64)) = 0x39#8 ∧ opOf (encode (.snextdr 1#32 0#64 1#64)) = 0x3A#8 := by decide
theorem witness_RemainderConventions :
    (1 : Int) ≤ 1 ∧ (0 : Int) ≤ 0 ∧ (-7 : Int) < 0 ∧ ¬ (3 : Int) ∣ -7 ∧ (3 : Int) ∣ -6 := by decide
/-- The smallest divisor, the largest, and an invalid pair. -/
theorem witness_IntConversionIsContained :
    (5#32).toInt < (6#32).toInt ∧ (6#32).toInt = (5#32).toInt + 1 ∧
    (0x80000000#32).toInt < (0x7FFFFFFF#32).toInt ∧ (5#32).toInt ≤ (5#32).toInt := by decide
/-- Both zeros, the ends of the subnormal range, the ends of the normal range, an infinity, a NaN. -/
theorem witness_PatternsHaveTheirValues :
    unpack 0x8000000000000000#64 = .fin true 0 ∧ unpack 1#64 = .fin false 1 ∧
    unpack 0x000FFFFFFFFFFFFF#64 = .fin false (2 ^ 52 - 1) ∧ unpack 0x0010000000000000#64 = .fin false (2 ^ 52) ∧
    unpack 0x7FEFFFFFFFFFFFFF#64 = .fin false ((2 ^ 53 - 1) * 2 ^ 2045) ∧
    unpack 0xFFF0000000000000#64 = .inf true ∧ unpack 0x7FF0000000000001#64 = .nan := by decide +kernel
theorem witness_PatternsAndDataCorrespond :
    nanPatternOk 0x7FF0000000000001#64 = true ∧ unpack 1#64 ≠ .nan ∧ Representable (2 ^ 53 - 1) ∧ 2 ^ 53 - 1 < magLimit :=
  ⟨by decide, by decide +kernel, ⟨2 ^ 53 - 1, 0, by decide, by decide⟩, by decide +kernel⟩
/-- A tie: one half of a unit lies as near to 0 as to 1, and 0 is even. -/
theorem witness_RoundingIsNearestTiesToEven :
    0 < 2 ∧ Representable 1 ∧ 1 ≠ roundMag 1 2 ∧
    |(roundMag 1 2 * (2 : Nat) : Int) - (1 : Nat)| = |((1 : Nat) * (2 : Nat) : Int) - (1 : Nat)| :=
  ⟨by decide, ⟨1, 0, by decide, by decide⟩, by decide +kernel, by decide +kernel⟩
theorem witness_OperationsRoundTheExactResult : 0 < 1 ∧ true ≠ false ∧ (1 : Nat) = 1 := by decide
theorem witness_SpecialOperandsOfArithmetic : 0 < 1 ∧ unpack 0#64 ≠ .fin true 0 := by decide +kernel
theorem finite_of {d : Wide} {neg : Bool} {mag : Nat} (h : unpack d = .fin neg mag) : (unpack d).IsFinite := ⟨neg, mag, h⟩
/-- The bounds -1.0 and 1.0, and their difference 2.0. -/
theorem witness_DoubleResultIsAtLeastMin :
    (unpack 0xBFF0000000000000#64).IsFinite ∧ (unpack 0x3FF0000000000000#64).IsFinite ∧
    fle (unpack 0x3FF0000000000000#64) (unpack 0xBFF0000000000000#64) = false ∧
    (fsub (unpack 0x3FF0000000000000#64) (unpack 0xBFF0000000000000#64)).IsFinite := by
  refine ⟨finite_of (neg := true) (mag := unitsPerOne) (by decide +kernel),
    finite_of (neg := false) (mag := unitsPerOne) (by decide +kernel), by decide +kernel,
    false, 2 * unitsPerOne, by decide +kernel⟩
/-- The largest finite bounds, whose difference overflows; infinite bounds; NaN bounds. -/
theorem witness_DoubleResultAtInfinityAndNan :
    (unpack 0xFFEFFFFFFFFFFFFF#64).IsFinite ∧
    fsub (unpack 0x7FEFFFFFFFFFFFFF#64) (unpack 0xFFEFFFFFFFFFFFFF#64) = .inf false ∧
    unpack 0x7FF0000000000000#64 = .inf false ∧ unpack 0xFFF0000000000000#64 = .inf true ∧
    (unpack 0x3FF0000000000000#64).IsFinite ∧ unpack 0x7FF8000000000000#64 = .nan :=
  ⟨finite_of (neg := true) (mag := (2 ^ 53 - 1) * 2 ^ 2045) (by decide +kernel), by decide +kernel, by decide +kernel,
    by decide +kernel, finite_of (neg := false) (mag := unitsPerOne) (by decide +kernel), by decide +kernel⟩
theorem witness_NextbReturnsTheLowByte : (st 1#32 []).STATE = 1#32 ∧ (st 0xA7326C55#32 []).STATE = 0xA7326C55#32 := by decide
theorem witness_NextdReturnsTheUnitQuotient :
    fdiv (u2d (transform (st 0#32 []).STATE)) (u2d 0xFFFFFFFF#32) ≠ .fin false 0 := by decide +kernel
/-- A bound at zero, the smallest positive bound, an infinite bound with both kinds of `raw`, a NaN. -/
theorem witness_NextdmDrawsUpToMax :
    fle (unpack 0#64) (.fin false 0) = true ∧ unpack 0x7FF8000000000000#64 = .nan ∧ unpack 1#64 = .fin false 1 ∧ 0 < 1 ∧
    unpack 0x7FF0000000000000#64 = .inf false ∧ transform (st 1#32 []).STATE ≠ 0#32 ∧
    transform (st 0x1EDF03EB#32 []).STATE = 0#32 := by decide +kernel
/-- A rejected pair, a pair with a number as its result, a pair with a NaN as its result: for `NEXTDR` and `SNEXTDR`. -/
theorem witness_NextdrDrawsByTheFormula :
    fle (unpack 0#64) (unpack 0x8000000000000000#64) = true ∧
    fle (unpack 0x3FF0000000000000#64) (unpack 0#64) = false ∧
    fadd (fmul (fdiv (u2d (transform 0#32)) (u2d 0xFFFFFFFF#32)) (fsub (unpack 0x3FF0000000000000#64) (unpack 0#64)))
      (unpack 0#64) ≠ .nan ∧
    fle (unpack 0x7FF0000000000000#64) (unpack 0xFFF0000000000000#64) = false ∧
    fadd (fmul (fdiv (u2d (transform 0#32)) (u2d 0xFFFFFFFF#32))
      (fsub (unpack 0x7FF0000000000000#64) (unpack 0xFFF0000000000000#64))) (unpack 0xFFF0000000000000#64) = .nan := by
  decide +kernel
/-- `NEXTM 10` and `SNEXTM 1, 10`; the command drawn after `SEED 1`. -/
theorem witness_StatelessEqualsSeededStateful :
    (∃ hi : Word, Instr.nextm 10#32 = .nextm hi ∧ Instr.snextm 1#32 10#32 = .snextm 1#32 hi) ∧
    statefulDraw (.nextm 10#32) = true ∧ rangeInvalid (.nextm 10#32) = false := ⟨⟨10#32, rfl, rfl⟩, rfl, by decide⟩
theorem witness_DrawsIterateTheTransform : ∀ v, Instr.seed v ∉ [Instr.next, .mix 1#32, .nextm 0#32] := by
  intro v h
  simp at h
theorem witness_DeterminismAfterSeed :
    (∀ x ∈ ({ st 1#32 [encode (.seed 0#32), encode .next] with resetLine := [.released, .released] } : State).resetLine,
      x = .released) ∧
    (∀ x ∈ (st 2#32 [encode (.seed 0#32), encode .next]).resetLine, x = .released) ∧
    ({ st 1#32 [encode (.seed 0#32), encode .next] with resetLine := [.released, .released] } : State).cmds =
      encode (.seed 0#32) :: [encode .next] ∧
    (st 2#32 [encode (.seed 0#32), encode .next]).cmds = encode (.seed 0#32) :: [encode .next] ∧
    1 ≤ [encode .next].length := by decide
theorem witness_TakingAResponseCommutesWithAStep :
    ({ st 1#32 [encode .next] with rsps := [okWord 0#64, invalidRangeWord] } : State).takeResponse =
      some (okWord 0#64, { st 1#32 [encode .next] with rsps := [invalidRangeWord] }) := by decide

end Sys2Proof.Tests
end

section
/-!
SUPPORT. The statements about `STATE` (10_state.md R11 to R13), settled from `exec_eq`, which says once what every command
does: first the rules these three proofs share, then the statements.
-/

namespace Sys2Proof.Machine

/-! ### The fields of the state after a command -/

section
variable (s : State) (x : Word) (r : Rsp) (n : Nat)

@[simp] theorem after_STATE : (s.after x r n).STATE = x := rfl
@[simp] theorem after_cmds : (s.after x r n).cmds = s.cmds := rfl
@[simp] theorem after_rsps : (s.after x r n).rsps = s.rsps ++ [r] := rfl
@[simp] theorem after_resetLine : (s.after x r n).resetLine = s.resetLine := rfl
@[simp] theorem after_nanDraws : (s.after x r n).nanDraws = n := rfl
@[simp] theorem after_resets : (s.after x r n).resets = s.resets := rfl

end

/-! ### The ports -/

/-- The statements' wording of a released reset input. -/
theorem not_underReset_of_released {s : State} (h : s.resetLine = [] ∨ s.resetLine.head? = some .released) :
    ¬ s.underReset := by
  refine (not_underReset_iff s).mpr (h.imp_right fun hh => ?_)
  exact List.head?_eq_some_iff.mp hh

/-! ### What an answer depends on, and what it counts -/

/-- A stateful draw with valid bounds advances `STATE` (10 R12). -/
theorem nextSTATE_of_valid_draw {i : Instr} (hd : statefulDraw i = true) (hv : rangeInvalid i = false) (x : Word) :
    nextSTATE i x = transform x := by
  have ha : answer i x ≠ .invalid := by simp [answer_invalid_iff, hv]
  rw [nextSTATE_draw hd x x, if_neg ha]

/-- The answer of a failed draw, or of a command that is no stateful draw, does not depend on `STATE` (10 R13). -/
theorem answer_eq_of_stateless_or_invalid {i : Instr} (h : statefulDraw i = false ∨ rangeInvalid i = true)
    (x y : Word) : answer i x = answer i y := by
  rcases h with hs | hi
  · exact answer_stateless hs x y
  · rw [(answer_invalid_iff i x).mpr hi, (answer_invalid_iff i y).mpr hi]

/-- An integer answer chooses no NaN pattern. -/
@[simp] theorem draws_ofInt (layout : Word → Wide) (v : Option Word) (n : Nat) :
    (Answer.ofInt layout v).draws n = n := by
  cases v <;> rfl

/-- Bit 3 of the opcode marks the double draws (30 R41); every other command leaves the count of NaN patterns alone. -/
theorem draws_of_not_double {i : Instr} (h : (opcode i).getLsbD 3 = false) (x : Word) (n : Nat) :
    (answer i x).draws n = n := by
  cases i with
  | seed v => rfl
  | mix v => rfl
  | next => rw [answer, draws_ofInt]
  | nextm hi => rw [answer, draws_ofInt]
  | nextr lo hi => rw [answer, draws_ofInt]
  | nextb => rw [answer, draws_ofInt]
  | snext v => rw [answer, draws_ofInt]
  | snextm v hi => rw [answer, draws_ofInt]
  | snextr v lo hi => rw [answer, draws_ofInt]
  | nextd | nextdm hi | nextdr lo hi | snextd v | snextdm v hi | snextdr v lo hi => simp [opcode] at h

/-! ### The statements -/

/-- Settles O12: a command leaves what `exec_eq` says, and an illegal word raises `ILLEGAL_OP`, which writes no `STATE`. -/
theorem writersOfSTATE : Obligations.WritersOfSTATE := by
  refine ⟨fun i s => ⟨_, exec_eq i s, after_STATE ..⟩, fun s w rest hr hc hd => ?_⟩
  exact ⟨_, step_illegal (not_underReset_of_released hr) hc hd, raise_STATE ..⟩

/-- Settles O13: the fields of the one next state that `exec_eq` gives. -/
theorem frameOfEveryCommand : Obligations.FrameOfEveryCommand := by
  intro i s t h
  rw [exec_eq] at h
  cases h
  exact ⟨after_cmds .., after_resetLine .., after_resets .., ⟨_, after_rsps ..⟩, after_STATE ..,
    fun hb => draws_of_not_double hb s.STATE s.nanDraws⟩

/-- Settles O15: a command that does not advance `STATE` has an answer that does not depend on it, hence one response from
both states. -/
theorem noPeekWithoutAdvance : Obligations.NoPeekWithoutAdvance := by
  intro i s x
  constructor
  · intro h
    have ha : answer i s.STATE = answer i x := answer_eq_of_stateless_or_invalid h s.STATE x
    exact ⟨_, _, exec_eq i s, exec_eq i { s with STATE := x }, by simp only [after_rsps, ha]⟩
  · intro hd hv
    exact ⟨_, exec_eq i s, nextSTATE_of_valid_draw hd hv s.STATE⟩

end Sys2Proof.Machine
end

section
/-!
SUPPORT. The statements about the order of commands and what they leave alone (20_memory.md R24 to R27), settled from
`exec_eq` and `step_cases`. A response waiting to be taken is data that no command and no step reads: `State.queued` adds
one in front of all others, and every step commutes with it.
-/

namespace Sys2Proof.Machine

/-! ### Every step and every command answers a next state -/

theorem exec_continues (i : Instr) (s : State) : Continues (exec i s) := ⟨_, exec_eq i s⟩

theorem step_continues (s : State) : Continues (step s) := by
  rcases step_cases s with ⟨_, _, e⟩ | ⟨_, _, e⟩ | ⟨_, _, e⟩ | ⟨_, _, _, _, _, e⟩ | ⟨_, _, _, i, _, _, e⟩
  · exact ⟨_, e⟩
  · exact ⟨_, e⟩
  · exact ⟨_, e⟩
  · exact ⟨_, e⟩
  · rw [e]; exact exec_continues i _

/-! ### A step under an asserted reset input -/

/-- No command is in flight: the block is reset and nothing is discarded (70 R136). -/
theorem step_asserted {s : State} {line : List ResetSample} (h : s.resetLine = .asserted :: line) :
    step s = .next ({ s with resetLine := line }.resetBlock none) := by
  simp only [step, State.portEvent, h]

/-- The command in flight, if one is presented, is discarded (70 R136). -/
theorem step_assertedMidCommand {s : State} {line : List ResetSample} (h : s.resetLine = .assertedMidCommand :: line) :
    step s = .next ({ s with resetLine := line, cmds := s.cmds.tail }.resetBlock s.cmds.head?) := by
  simp only [step, State.portEvent, h]

/-! ### A response waiting in front of all others -/

/-- `s` with the response `r` still to be taken before all of its own. -/
def State.queued (r : Rsp) (s : State) : State := { s with rsps := r :: s.rsps }

/-- Taking a response undoes `State.queued`, and nothing else is taken (20 R25 d). -/
theorem takeResponse_eq_some_iff {s s' : State} {r : Rsp} :
    s.takeResponse = some (r, s') ↔ s = s'.queued r := by
  constructor
  · intro h
    unfold State.takeResponse at h
    split at h
    case h_1 => cases h
    case h_2 hs =>
      cases h
      simp only [State.queued, ← hs]
  · rintro rfl
    rfl

/-- No command reads the responses that wait. -/
theorem exec_queued {i : Instr} {s t : State} (r : Rsp) (h : exec i s = .next t) :
    exec i (s.queued r) = .next (t.queued r) := by
  rw [exec_eq] at h ⊢
  cases h
  rfl

/-- No step reads the responses that wait; that a reset keeps them is the model's choice (log entry 5). -/
theorem step_queued {s t : State} (r : Rsp) (h : step s = .next t) : step (s.queued r) = .next (t.queued r) := by
  rcases step_cases s with ⟨line, hl, e⟩ | ⟨line, hl, e⟩ | ⟨hr, hc, e⟩ | ⟨hr, w, rest, hc, hd, e⟩ |
    ⟨hr, w, rest, i, hc, hd, e⟩ <;> rw [e] at h
  · cases h; exact step_asserted (s := s.queued r) hl
  · cases h; exact step_assertedMidCommand (s := s.queued r) hl
  · cases h; exact step_idle (s := s.queued r) hr hc
  · cases h; exact step_illegal (s := s.queued r) hr hc hd
  · exact (step_command (s := s.queued r) hr hc hd).trans (exec_queued r h)

/-! ### The same command twice -/

/-- A command that is no stateful draw answers alike from any two states (20 R25 c): only the NaN pattern may differ. -/
theorem rspAgree_of_stateless {i : Instr} (h : statefulDraw i = false) (x y : Word) (n m : Nat) :
    rspAgree ((answer i x).word n) ((answer i y).word m) := by
  rw [answer_stateless h x y]
  exact rspAgree_word _ n m

/-! ### The statements -/

/-- Settles O6: `step_command`, with the statement's wording of a released reset input. -/
theorem stepRunsDecodedCommand : Obligations.StepRunsDecodedCommand := by
  intro s w rest i hr hc hd
  exact step_command (not_underReset_of_released hr) hc hd

/-- Settles O8: `step_cases` and `exec_eq` give the next state in each case. -/
theorem machineNeverStops : Obligations.MachineNeverStops := ⟨step_continues, exec_continues⟩

/-- Settles O16: `exec_eq` applied once and again, at the state the first run left. -/
theorem sideEffectsOfCommands : Obligations.SideEffectsOfCommands := by
  refine ⟨fun v s => ?seed, fun i s hd hv => ?stateless, fun s s' r h => ?take, fun i s hi => ?failed⟩
  case seed => exact ⟨_, _, exec_eq _ s, exec_eq _ _, rfl, rfl⟩
  case stateless =>
    refine ⟨_, _, _, _, exec_eq i s, exec_eq i _, ?_, after_rsps .., after_rsps .., rspAgree_of_stateless hd ..⟩
    simp only [after_STATE, nextSTATE_stateless hd hv]
  case take => exact takeResponse_eq_some_iff.mp h
  case failed => exact ⟨_, exec_eq i s, nextSTATE_of_rangeInvalid hi s.STATE⟩

/-- Settles O54: the state before the taking is `s'.queued r`, and a step commutes with `State.queued`. -/
theorem takingAResponseCommutesWithAStep : Obligations.TakingAResponseCommutesWithAStep := by
  intro s s' r h
  obtain ⟨t', ht'⟩ := step_continues s'
  obtain rfl := takeResponse_eq_some_iff.mp h
  exact ⟨t'.queued r, t', step_queued r ht', ht', takeResponse_eq_some_iff.mpr rfl⟩

end Sys2Proof.Machine
end

section
/-!
SUPPORT. The statements about the encoding (30_encoding.md R35 to R47), settled from the laws of the decoder and the
encoder and, for the responses, from `exec_eq` and `step_cases`. Encoding is injective, and the bits a command uses depend
on its opcode alone: so a word is determined, up to ignored bits, by what it decodes to.
-/

namespace Sys2Proof

/-! ### Encode, then decode -/

/-- Each opcode selects its row of the decoder, and each field reads back what was packed (R35, R41). -/
theorem decode_encode (i : Instr) : decode (encode i) = some i := by
  cases i with
  | seed v => simp only [encode, decode_seed, opOf_packCmd, seedOf_packCmd]
  | mix v => simp only [encode, decode_mix, opOf_packCmd, seedOf_packCmd]
  | next => simp only [encode, decode_next, opOf_packCmd]
  | nextm hi => simp only [encode, decode_nextm, opOf_packCmd, bIntOf_packCmd]
  | nextr lo hi => simp only [encode, decode_nextr, opOf_packCmd, aIntOf_packCmd, bIntOf_packCmd]
  | nextb => simp only [encode, decode_nextb, opOf_packCmd]
  | nextd => simp only [encode, decode_nextd, opOf_packCmd]
  | nextdm hi => simp only [encode, decode_nextdm, opOf_packCmd, bOf_packCmd]
  | nextdr lo hi => simp only [encode, decode_nextdr, opOf_packCmd, aOf_packCmd, bOf_packCmd]
  | snext v => simp only [encode, decode_snext, opOf_packCmd, seedOf_packCmd]
  | snextm v hi => simp only [encode, decode_snextm, opOf_packCmd, seedOf_packCmd, bIntOf_packCmd]
  | snextr v lo hi =>
    simp only [encode, decode_snextr, opOf_packCmd, seedOf_packCmd, aIntOf_packCmd, bIntOf_packCmd]
  | snextd v => simp only [encode, decode_snextd, opOf_packCmd, seedOf_packCmd]
  | snextdm v hi => simp only [encode, decode_snextdm, opOf_packCmd, seedOf_packCmd, bOf_packCmd]
  | snextdr v lo hi => simp only [encode, decode_snextdr, opOf_packCmd, seedOf_packCmd, aOf_packCmd, bOf_packCmd]

/-- A word the encoder writes decodes to the command it was written for. -/
theorem decode_of_encode_eq {i : Instr} {w : Cmd} (h : encode i = w) : decode w = some i := h ▸ decode_encode i

/-- No two commands have the same word. -/
theorem encode_injective {i j : Instr} (h : encode i = encode j) : i = j :=
  Option.some.inj ((decode_encode i).symm.trans (decode_of_encode_eq h.symm))

/-! ### The used bits of a command word -/

/-- The assembler sets no ignored bit (R40, R46). -/
theorem wordCanonical_encode (i : Instr) : i.wordCanonical (encode i) = true :=
  (wordCanonical_iff i _).mpr (encode_of_decode (decode_encode i)).symm

/-- Which bits a command uses its opcode decides (R40): they are those of the command read from a word that has this
opcode and zero elsewhere. -/
theorem usedBits_of_opcode (i : Instr) :
    (decode (packCmd (opcode i) 0#32 0#64 0#64)).map Instr.usedBits = some i.usedBits := by
  cases i <;> simp only [opcode, Instr.usedBits] <;> decide

theorem usedBits_eq_of_opcode_eq {i j : Instr} (h : opcode i = opcode j) : i.usedBits = j.usedBits := by
  have hi := usedBits_of_opcode i
  rw [h, usedBits_of_opcode j] at hi
  exact (Option.some.inj hi).symm

/-- Every command uses the whole opcode field (R41). -/
theorem opOf_usedBits (i : Instr) : opOf i.usedBits = 0xFF#8 := by
  cases i <;> simp only [Instr.usedBits] <;> decide

/-- Masking a word with the bits a command uses keeps its opcode. -/
theorem opOf_and_usedBits (i : Instr) (w : Cmd) : opOf (w &&& i.usedBits) = opOf w := by
  have h : opOf (w &&& i.usedBits) = opOf w &&& opOf i.usedBits := BitVec.extractLsb'_and
  rw [h, opOf_usedBits, and_ones8]

/-- A word whose opcode is a command's decodes to some command of that opcode. -/
theorem exists_decode_of_opOf_eq {w w' : Cmd} {i : Instr} (hd : decode w = some i) (ho : opOf w' = opOf w) :
    ∃ j, decode w' = some j ∧ opcode j = opcode i := by
  have hw' : decode w' ≠ none := by
    rw [Ne, decode_none_iff, ho, ← decode_none_iff, hd]
    simp
  obtain ⟨j, hj⟩ := Option.ne_none_iff_exists'.mp hw'
  exact ⟨j, hj, by rw [opcode_of_decode hj, ho, opcode_of_decode hd]⟩

/-- A word that agrees with a command's word in the bits the command uses is that command (R40). -/
theorem decode_of_and_usedBits_eq {w w' : Cmd} {i : Instr} (hd : decode w = some i)
    (hu : w' &&& i.usedBits = w &&& i.usedBits) : decode w' = some i := by
  have ho : opOf w' = opOf w := by rw [← opOf_and_usedBits i w', hu, opOf_and_usedBits]
  obtain ⟨j, hj, hop⟩ := exists_decode_of_opOf_eq hd ho
  have he : encode j = encode i := by
    rw [encode_of_decode hj, usedBits_eq_of_opcode_eq hop, hu, encode_of_decode hd]
  rw [hj, encode_injective he]

namespace Machine

/-- Two words that decode to the same command make the same step (20 R27): the word itself is kept nowhere. -/
theorem step_eq_of_decode_eq {s : State} {w w' : Cmd} {i : Instr} (rest : List Cmd) (hr : ¬ s.underReset)
    (hd : decode w = some i) (hd' : decode w' = some i) :
    step { s with cmds := w' :: rest } = step { s with cmds := w :: rest } :=
  (step_command (s := { s with cmds := w' :: rest }) hr rfl hd').trans
    (step_command (s := { s with cmds := w :: rest }) hr rfl hd).symm

/-! ### The responses a step adds -/

/-- A step adds at most one response, and a legal one (R43, R45). -/
theorem step_rsps {s t : State} (h : step s = .next t) :
    t.rsps = s.rsps ∨ ∃ r, rspLegal r = true ∧ t.rsps = s.rsps ++ [r] := by
  rcases step_cases s with ⟨_, _, e⟩ | ⟨_, _, e⟩ | ⟨_, _, e⟩ | ⟨_, _, _, _, _, e⟩ | ⟨_, _, _, i, _, _, e⟩ <;>
    rw [e] at h
  · cases h; exact .inl rfl
  · cases h; exact .inl rfl
  · cases h; exact .inl rfl
  · cases h; exact .inr ⟨_, rspLegal_illegalOpWord, raise_rsps ..⟩
  · rw [exec_eq] at h
    cases h
    exact .inr ⟨_, rspLegal_word _ _, after_rsps ..⟩

/-- An accepted word is answered with one response, after all earlier ones (R45). -/
theorem step_accepts {s : State} {w : Cmd} {rest : List Cmd} (hr : ¬ s.underReset) (hc : s.cmds = w :: rest) :
    ∃ (t : State) (r : Rsp), step s = .next t ∧ t.cmds = rest ∧ t.rsps = s.rsps ++ [r] ∧
      ∀ v : Word, decode w = some (.seed v) → r = okWord 0#64 := by
  cases hd : decode w with
  | none => exact ⟨_, _, step_illegal hr hc hd, raise_cmds .., raise_rsps .., fun _ hv => nomatch hv⟩
  | some i =>
    refine ⟨_, _, (step_command hr hc hd).trans (exec_eq i _), after_cmds .., after_rsps .., fun v hv => ?_⟩
    cases hv
    rfl

/-- Under reset no response is produced, and those already produced stay (70 R136, log entry 5). -/
theorem step_underReset_rsps {s : State} (h : s.underReset) : ∃ t, step s = .next t ∧ t.rsps = s.rsps := by
  obtain ⟨line, hl | hl⟩ := h
  · exact ⟨_, step_asserted hl, rfl⟩
  · exact ⟨_, step_assertedMidCommand hl, rfl⟩

/-- The statements' wording of an asserted reset input. -/
theorem underReset_of_asserted {s : State}
    (h : s.resetLine.head? = some .asserted ∨ s.resetLine.head? = some .assertedMidCommand) : s.underReset := by
  rcases h with h | h <;> obtain ⟨line, hl⟩ := List.head?_eq_some_iff.mp h
  · exact ⟨line, .inl hl⟩
  · exact ⟨line, .inr hl⟩

/-! ### The placed word and the state after reset -/

/-- A word the host's decoder reads is a command word. -/
theorem decode_of_decodeTableWord {nbits w : Nat} {i : Instr} (h : decodeTableWord nbits w = some i) :
    decode (BitVec.ofNat 168 (w % 2 ^ nbits)) = some i := by
  unfold decodeTableWord at h
  split at h
  · exact h
  · cases h

/-- `withFetchWord` releases the reset input for the coming step (log entry 2). -/
theorem not_underReset_withFetchWord (s : State) (nbits w : Nat) : ¬ (s.withFetchWord nbits w).underReset :=
  not_underReset_of_released (.inr rfl)

theorem not_underReset_reset : ¬ State.reset.underReset := not_underReset_of_released (.inl rfl)

/-! ### Decimal literals -/

/-- The patterns of the literals `10.0`, `-0.1` and `0.2` in 95_test_vectors.md. -/
theorem dblOperand_ten : dblOperand (.dec false 100 (-1)) = some 0x4024000000000000#64 := by decide +kernel
theorem dblOperand_neg_tenth : dblOperand (.dec true 1 (-1)) = some 0xBFB999999999999A#64 := by decide +kernel
theorem dblOperand_fifth : dblOperand (.dec false 2 (-1)) = some 0x3FC999999999999A#64 := by decide +kernel

/-! ### The statements -/

/-- Settles O1: the row of each opcode, read from the packed fields. -/
theorem decodeOfEncode : Obligations.DecodeOfEncode := decode_encode

/-- Settles O10: the one response a step may add is legal. -/
theorem stepKeepsResponsesLegal : Obligations.StepKeepsResponsesLegal := by
  intro s t hs h r hr
  rcases step_rsps h with e | ⟨r', hl, e⟩ <;> rw [e] at hr
  · exact hs r hr
  · rcases List.mem_append.mp hr with hr | hr
    · exact hs r hr
    · rw [List.mem_singleton.mp hr]
      exact hl

/-- Settles O2: the encoder writes the used bits of the word, and a canonical word has no others. -/
theorem encodeOfDecodedCanonicalWord : Obligations.EncodeOfDecodedCanonicalWord := by
  intro w i hd hc
  exact (encode_of_decode hd).trans ((wordCanonical_iff i w).mp hc)

/-- Settles O3: words that agree in the used bits are one command, and a step sees of the word only its command. -/
theorem ignoredBitsHaveNoEffect : Obligations.IgnoredBitsHaveNoEffect := by
  refine ⟨fun w w' i hd hu => ?_, wordCanonical_encode⟩
  have hd' := decode_of_and_usedBits_eq hd hu
  exact ⟨hd', fun s rest hr => step_eq_of_decode_eq rest (not_underReset_of_released hr) hd hd'⟩

/-- Settles O4: an illegal opcode is one the decoder has no row for, and then a step raises `ILLEGAL_OP`. -/
theorem illegalOpcodesEndWithIllegalOp : Obligations.IllegalOpcodesEndWithIllegalOp := by
  refine ⟨decode_none_iff, ?count, ?ranges, fun s w rest hr hc hl => ?step⟩
  case count => decide +kernel
  case ranges => decide
  case step => exact step_illegal (not_underReset_of_released hr) hc ((decode_none_iff w).mpr hl)

/-- Settles O9: the three cases of the ports, a word accepted, no word presented, reset asserted. -/
theorem oneResponsePerAcceptedCommand : Obligations.OneResponsePerAcceptedCommand := by
  intro s
  refine ⟨fun w rest hr hc => ?accepted, fun hr hc => ?idle, fun hr => ?reset⟩
  case accepted => exact step_accepts (not_underReset_of_released hr) hc
  case idle => exact step_idle (not_underReset_of_released hr) hc
  case reset => exact step_underReset_rsps (underReset_of_asserted hr)

/-- Settles O5: each word is the one the encoder writes for its command. -/
theorem sampleWordsDecode : Obligations.SampleWordsDecode :=
  ⟨decode_of_encode_eq (by decide), decode_of_encode_eq (by decide), decode_of_encode_eq (by decide),
    decode_of_encode_eq (by decide), decode_of_encode_eq (by decide), decode_of_encode_eq (by decide)⟩

/-- Settles O7: the placed word is accepted, which leaves the channels as they were before it was placed. -/
theorem placedWordRunsNext : Obligations.PlacedWordRunsNext := by
  intro s nbits w i h
  exact step_command (not_underReset_withFetchWord s nbits w) rfl (decode_of_decodeTableWord h)

/-- Settles O11: the channels are empty after reset, so the response invariant is vacuous there and a step is idle. -/
theorem resetStateIsIdleAndLegal : Obligations.ResetStateIsIdleAndLegal :=
  ⟨fun _ hr => absurd hr List.not_mem_nil, rfl, rfl, rfl, step_idle not_underReset_reset rfl⟩

/-- Settles O55: each line is the command whose word the vectors give; no line but the last two reads the time value. -/
theorem assembledLines : Obligations.AssembledLines := by
  intro t
  have hten : assemble t .NEXTDM [.dec false 100 (-1)] = some [.nextdm 0x4024000000000000#64] := by
    simp only [assemble, dblOperand_ten, Option.pure_def, Option.bind_eq_bind, Option.bind_some]
  have hrange : assemble t .NEXTDR [.dec true 1 (-1), .dec false 2 (-1)] =
      some [.nextdr 0xBFB999999999999A#64 0x3FC999999999999A#64] := by
    simp only [assemble, dblOperand_neg_tenth, dblOperand_fifth, Option.pure_def, Option.bind_eq_bind, Option.bind_some]
  refine ⟨rfl, rfl, rfl, ?_, ?_, rfl, rfl⟩
  · rw [hten]; rfl
  · rw [hrange]; rfl

end Machine

end Sys2Proof
end

section
/-!
SUPPORT. The statements about the mixing transform (40_transform.md R56 to R62): `FOLD` and the widened products as natural
numbers, the values of `T` that R61 lists, then the statements.
-/

namespace Sys2Proof.Machine

/-! ### Folding -/

/-- `FOLD` by its two halves, as R56 words it. -/
theorem fold_eq_xor_halves (w : Wide) : fold w = w.extractLsb' 32 32 ^^^ w.extractLsb' 0 32 := by
  ext i hi
  simp [fold, show i < 64 by omega]

/-- `FOLD` on natural numbers: the halves are the quotient and the remainder by 2^32. -/
theorem toNat_fold (w : Wide) : (fold w).toNat = (w.toNat / 2 ^ 32) ^^^ (w.toNat % 2 ^ 32) := by
  have hw : w.toNat / 2 ^ 32 < 2 ^ 32 := by omega
  rw [fold_eq_xor_halves, BitVec.toNat_xor, BitVec.extractLsb'_toNat, BitVec.extractLsb'_toNat, Nat.shiftRight_eq_div_pow,
    Nat.mod_eq_of_lt hw, Nat.shiftRight_zero]

/-! ### The widened products -/

theorem toNat_cMul1 : Params.cMul1.toNat = 0x4A39B70D := rfl
theorem toNat_cMul2 : Params.cMul2.toNat = 0x12FAD5C9 := rfl

/-- A 32-bit value, widened, times a 64-bit constant, reduced at the product's width (R57 steps 2 and 4). -/
theorem toNat_widened_mul (x : Word) (c : Wide) : (x.setWidth 64 * c).toNat = x.toNat * c.toNat % 2 ^ 64 := by
  rw [BitVec.toNat_mul, BitVec.toNat_setWidth_of_le (by decide)]

/-- Times a constant below 2^32 the reduction does nothing (R59). -/
theorem toNat_widened_mul_of_lt (x : Word) {c : Wide} (hc : c.toNat < 2 ^ 32) :
    (x.setWidth 64 * c).toNat = x.toNat * c.toNat := by
  have hlt : x.toNat * c.toNat < 2 ^ 64 :=
    calc x.toNat * c.toNat < 2 ^ 32 * 2 ^ 32 := Nat.mul_lt_mul'' x.isLt hc
      _ = 2 ^ 64 := by norm_num
  rw [toNat_widened_mul, Nat.mod_eq_of_lt hlt]

/-! ### Values of `T` (R61) -/

theorem transform_zero : transform 0#32 = 0x1322D6D0#32 := by decide

/-- This seed makes the sum of step 1 zero, and with it both products. -/
theorem transform_of_zero_sum : transform 0x1EDF03EB#32 = 0#32 := by decide

theorem transform_fixed_point : transform 0x1D553BCA#32 = 0x1D553BCA#32 := by decide

/-- `T` merges two of the preimages of `0xFFFFFFFF`. -/
theorem transform_merges : transform 0x1EDF03EA#32 = transform 0x74345940#32 := by decide

theorem transform_not_injective : ¬ Function.Injective transform := fun hinj =>
  absurd (hinj transform_merges) (by decide)

/-- On a finite type a map that merges two values misses one. -/
theorem transform_not_surjective : ¬ Function.Surjective transform :=
  mt Finite.injective_iff_surjective.mpr transform_not_injective

/-! ### `MIX` -/

/-- `MIX` as one update: `T(seed)`, zero-extended, is answered, and no other field changes (R62). -/
theorem exec_mix (seed : Word) (s : State) :
    exec (.mix seed) s = .next { s with rsps := s.rsps ++ [okWord ((transform seed).setWidth 64)] } :=
  exec_eq (.mix seed) s

/-! ### The statements -/

/-- Settles O20: the five steps of `transform_eq`, read as natural numbers one by one. -/
theorem transformByFiveSteps : Obligations.TransformByFiveSteps := by
  intro seed
  have hs1 : (seed + Params.cAdd).toNat = (seed.toNat + 0xE120FC15) % 2 ^ 32 := BitVec.toNat_add ..
  simp only [transform_eq, toNat_fold, toNat_widened_mul, hs1, toNat_cMul1, toNat_cMul2]

/-- Settles O22: the listed values by evaluation; two preimages of `0xFFFFFFFF` refute injectivity, and with it
surjectivity. -/
theorem transformIsNoPermutation : Obligations.TransformIsNoPermutation :=
  ⟨transform_fixed_point, by decide, transform_of_zero_sum, by decide, by decide, by decide, by decide, transform_zero,
    by decide, transform_not_injective, transform_not_surjective⟩

/-- Settles O19: `FOLD` by its two halves. -/
theorem foldXorsTheHalves : Obligations.FoldXorsTheHalves := fold_eq_xor_halves

/-- Settles O21: both constants are below 2^32, so the products are exact; the bounds are those of a 32-bit factor. -/
theorem productsNeverOverflow : Obligations.ProductsNeverOverflow := by
  intro s1 m1
  have hs1 : s1.toNat < 2 ^ 32 := s1.isLt
  have hm1 : m1.toNat < 2 ^ 32 := m1.isLt
  refine ⟨by omega, by omega, ?_, ?_, by omega, by omega, by omega, by omega⟩
  · exact toNat_widened_mul_of_lt s1 (by decide)
  · exact toNat_widened_mul_of_lt m1 (by decide)

/-- Settles O23: the decoder's row and `exec_mix`; the corner cases are values of `T` from R61. -/
theorem mixReturnsTheTransform : Obligations.MixReturnsTheTransform := by
  refine ⟨fun w hw => decode_mix hw, exec_mix, fun s => ⟨?_, ?_, ?_⟩⟩
  · rw [exec_mix, transform_zero]; rfl
  · rw [exec_mix, transform_of_zero_sum]; rfl
  · rw [exec_mix, transform_fixed_point]; rfl

end Sys2Proof.Machine
end

section
/-!
SUPPORT. The statements about the integer conversion (41_range_conversion.md R69 to R74): the two remainder conventions,
then `CONV_INT`, whose result is the lower bound plus a Euclidean remainder.
-/

namespace Sys2Proof.Machine

/-! ### The two remainders -/

theorem remainder_euclid (r d : Int) : remainder .euclid r d = r % d := rfl
theorem remainder_trunc (r d : Int) : remainder .trunc r d = r.tmod d := rfl

/-- `EMOD`, by the property that determines it (R71). -/
theorem emod_eq_iff_of_pos {r d q : Int} (hd : 1 ≤ d) : r % d = q ↔ 0 ≤ q ∧ q < d ∧ d ∣ r - q := by
  rw [Int.emod_eq_iff (by omega), dvd_sub_comm, Int.natAbs_of_nonneg (by omega)]

/-- The remainder of numbers that are not negative is the natural numbers' remainder. -/
theorem emod_eq_toNat_mod {r d : Int} (hr : 0 ≤ r) (hd : 0 ≤ d) : r % d = ((r.toNat % d.toNat : Nat) : Int) := by
  rw [Int.natCast_mod, Int.toNat_of_nonneg hr, Int.toNat_of_nonneg hd]

/-- The remainder with the sign of a negative dividend. -/
theorem tmod_of_neg {r : Int} (d : Int) (hr : r < 0) : r.tmod d = -(-r % d) := by
  rw [← Int.tmod_eq_emod_of_nonneg (show 0 ≤ -r by omega), Int.neg_tmod, neg_neg]

/-- The two conventions agree on a dividend that is not negative or that `d` divides. -/
theorem tmod_eq_emod_of_nonneg_or_dvd {r d : Int} (h : 0 ≤ r ∨ d ∣ r) : r.tmod d = r % d := by
  rcases h with h | h
  · exact Int.tmod_eq_emod_of_nonneg h
  · rw [Int.tmod_eq_zero_of_dvd h, Int.emod_eq_zero_of_dvd h]

/-! ### `CONV_INT` -/

theorem convInt_eq_none_iff (raw lo hi : Word) : convInt raw lo hi = none ↔ hi.toInt ≤ lo.toInt := by
  refine ⟨fun h => ?_, convInt_invalid⟩
  by_contra hv
  rw [convInt_valid (not_le.mp hv)] at h
  cases h

/-- On valid bounds the result is `min` plus the remainder of the narrowed `raw`, which loses nothing (R72, R74). -/
theorem exists_convInt_of_valid (raw : Word) {lo hi : Word} (h : lo.toInt < hi.toInt) :
    ∃ v, convInt raw lo hi = some v ∧ v.toInt = lo.toInt + raw.toInt % (hi.toInt - lo.toInt) :=
  ⟨_, convInt_valid h, convInt_toInt h⟩

/-- The difference of two signed bounds fits 32 bits unsigned (R70). -/
theorem toInt_sub_toInt_le (lo hi : Word) : hi.toInt - lo.toInt ≤ 2 ^ 32 - 1 := by
  have hlo := BitVec.le_toInt lo
  have hhi := BitVec.toInt_lt (x := hi)
  omega

/-- The narrowed `0xFFFFFFFF` is -1, whose Euclidean remainder is the largest (R74). -/
theorem neg_one_emod_of_pos {d : Int} (hd : 1 ≤ d) : (0xFFFFFFFF#32).toInt % d = d - 1 :=
  (emod_eq_iff_of_pos hd).mpr ⟨by omega, by omega, -1, by rw [show (0xFFFFFFFF#32).toInt = -1 by decide]; ring⟩

/-! ### The statements -/

/-- Settles O24: the Euclidean remainder by its defining property, the other one by its value at the negated dividend. -/
theorem remainderConventions : Obligations.RemainderConventions := by
  refine ⟨rfl, fun r d hd => ?_⟩
  simp only [remainder_euclid, remainder_trunc]
  refine ⟨fun q => emod_eq_iff_of_pos hd, ?floored, fun hr => emod_eq_toNat_mod hr (by omega),
    emod_of_neg r d hd, ?trunc_nonneg, ?trunc_neg, ?trunc_range, ?trunc_lt, tmod_eq_emod_of_nonneg_or_dvd⟩
  case floored => exact (Int.fmod_eq_emod_of_nonneg r (by omega)).symm
  case trunc_nonneg =>
    intro hr
    rw [tmod_eq_emod_of_nonneg_or_dvd (.inl hr), emod_eq_toNat_mod hr (by omega)]
  case trunc_neg =>
    intro hr
    rw [tmod_of_neg d hr, emod_eq_toNat_mod (by omega) (by omega)]
  case trunc_range =>
    intro hr
    have h0 := Int.emod_nonneg (-r) (show d ≠ 0 by omega)
    have h1 := Int.emod_lt_of_pos (-r) (show 0 < d by omega)
    rw [tmod_of_neg d hr]
    omega
  case trunc_lt =>
    intro hr hnd
    have h0 := Int.emod_nonneg (-r) (show d ≠ 0 by omega)
    have h1 : -r % d ≠ 0 := fun h => hnd ((Int.dvd_neg).mp (Int.dvd_of_emod_eq_zero h))
    rw [tmod_of_neg d hr]
    omega

/-- Settles O25: the result is `min` plus a remainder in `[0, max - min)`. -/
theorem intConversionIsContained : Obligations.IntConversionIsContained := by
  intro raw lo hi
  refine ⟨(convInt_eq_none_iff raw lo hi).symm, fun h => ?_⟩
  have hd : 1 ≤ hi.toInt - lo.toInt := by omega
  obtain ⟨v, hv, hval⟩ := exists_convInt_of_valid raw h
  have h0 := Int.emod_nonneg raw.toInt (show hi.toInt - lo.toInt ≠ 0 by omega)
  have h1 := Int.emod_lt_of_pos raw.toInt (show 0 < hi.toInt - lo.toInt by omega)
  refine ⟨hd, toInt_sub_toInt_le lo hi, v, hv, ?value, by omega, by omega, ?single, ?zero, ?last⟩
  case value => rw [hval, toInt_emod raw _ (by omega)]
  case single =>
    intro hs
    exact BitVec.eq_of_toInt_eq (by omega)
  case zero =>
    rintro rfl
    rw [BitVec.toInt_zero, Int.zero_emod, add_zero] at hval
    exact BitVec.eq_of_toInt_eq hval
  case last =>
    rintro rfl
    rw [hval, neg_one_emod_of_pos hd]
    omega

/-- Settles O26: the bounds are compared as signed numbers, so the first pair is valid and the second is not. -/
theorem widestBoundsAreValid : Obligations.WidestBoundsAreValid := by
  refine ⟨fun raw => ?_, fun raw => convInt_invalid (by decide)⟩
  obtain ⟨v, hv, -⟩ := exists_convInt_of_valid raw (show (0x80000000#32).toInt < (0x7FFFFFFF#32).toInt by decide)
  exact ⟨v, hv⟩

end Sys2Proof.Machine
end

section
/-!
SUPPORT. The statements about patterns and data (41_range_conversion.md R76, R81): a pattern is its sign, exponent and
fraction, and each class of R76 is one case of those fields.
-/

namespace Sys2Proof.Machine

/-! ### A pattern is its three fields -/

/-- The datum of a pattern, by the fields of R76. -/
theorem unpack_eq (d : Wide) :
    unpack d =
      if (d.extractLsb' 52 11).toNat = 2047 then
        (if (d.extractLsb' 0 52).toNat = 0 then .inf (d.getLsbD 63) else .nan)
      else if (d.extractLsb' 52 11).toNat = 0 then .fin (d.getLsbD 63) (d.extractLsb' 0 52).toNat
      else .fin (d.getLsbD 63) ((2 ^ 52 + (d.extractLsb' 0 52).toNat) * 2 ^ ((d.extractLsb' 52 11).toNat - 1)) := by
  unfold unpack
  rfl

/-- A pattern is its sign, exponent and fraction, put together. -/
theorem append_fields (d : Wide) : d.extractLsb' 63 1 ++ d.extractLsb' 52 11 ++ d.extractLsb' 0 52 = d := by
  rw [BitVec.extractLsb'_append_extractLsb'_eq_extractLsb' (show 63 = 52 + 11 from rfl),
    BitVec.extractLsb'_append_extractLsb'_eq_extractLsb' (show 52 = 0 + 52 from rfl)]
  exact BitVec.extractLsb'_eq_self

/-! ### The value of a finite datum -/

theorem value_fin (neg : Bool) (mag : Nat) :
    (Datum.fin neg mag).value = (signedMag neg mag : ℚ) / (unitsPerOne : ℚ) := rfl

/-- R76's form of a value: a sign, and a multiple of 2^-1074. -/
theorem value_fin_eq (neg : Bool) (mag : Nat) :
    (Datum.fin neg mag).value = (-1) ^ neg.toNat * (mag : ℚ) * 2 ^ (-1074 : Int) := by
  have hU : (unitsPerOne : ℚ)⁻¹ = 2 ^ (-1074 : Int) := by
    rw [unitsPerOne_eq, Nat.cast_pow, Nat.cast_ofNat, zpow_neg, zpow_ofNat]
  rw [value_fin, div_eq_mul_inv, hU]
  congr 1
  cases neg <;> simp [signedMag]

/-- The value of a normal number, with the leading one written out (R76). -/
theorem value_normal (neg : Bool) (f : Nat) {e : Nat} (he : 1 ≤ e) :
    (Datum.fin neg ((2 ^ 52 + f) * 2 ^ (e - 1))).value =
      (-1) ^ neg.toNat * (1 + (f : ℚ) * 2 ^ (-52 : Int)) * 2 ^ ((e : Int) - 1023) := by
  have hexp : (2 : ℚ) ^ ((e : Int) - 1023) = 2 ^ (52 : Nat) * 2 ^ (e - 1) * 2 ^ (-1074 : Int) := by
    rw [← zpow_natCast, ← zpow_natCast, ← zpow_add₀ two_ne_zero, ← zpow_add₀ two_ne_zero]
    congr 1
    omega
  have hf : (2 : ℚ) ^ (-52 : Int) * 2 ^ (52 : Nat) = 1 := by norm_num
  rw [value_fin_eq, hexp]
  generalize (2 : ℚ) ^ (-1074 : Int) = unit
  push_cast
  linear_combination (-(-1) ^ neg.toNat * (f : ℚ) * 2 ^ (e - 1) * unit) * hf

/-! ### Packing and unpacking -/

theorem unpack_eq_nan_iff (d : Wide) : unpack d = .nan ↔ nanPatternOk d = true := by
  obtain ⟨neg, e, f, h, he, hf⟩ := exists_fields d
  rw [unpack_of_fields h he hf, nanPatternOk_of_fields h he hf]
  by_cases hmax : e = 2047
  · by_cases hzero : f = 0 <;> simp [hmax, hzero]
  · by_cases hsub : e = 0 <;> simp [hmax, hsub]

/-- Packing the datum of a pattern that is no NaN gives the pattern back. -/
theorem pack_unpack {d : Wide} (h : unpack d ≠ .nan) (c : BitVec 53) : pack c (unpack d) = d := by
  obtain ⟨neg, e, f, hd, he, hf⟩ := exists_fields d
  apply BitVec.eq_of_toNat_eq
  rw [unpack_of_fields hd he hf] at h ⊢
  split_ifs at h ⊢ with hmax hzero hsub
  · rw [toNat_pack_inf, hd, hmax, hzero]
  · exact absurd rfl h
  · rw [toNat_pack_fin, toNat_packMag_subnormal (by omega), hd, hsub]
    omega
  · rw [toNat_pack_fin, toNat_packMag_normal (by omega) (by omega) hf, hd]
    omega

/-- The pattern of a binary64 magnitude is read back, whether it is subnormal or normal. -/
theorem unpack_pack_fin (c : BitVec 53) (neg : Bool) {mag : Nat} (hr : Representable mag) (hl : mag < magLimit) :
    unpack (pack c (.fin neg mag)) = .fin neg mag := by
  rcases representable_cases hr hl with ⟨f, hf, rfl⟩ | ⟨e, f, he1, he2, hf, rfl⟩
  · have h : (pack c (.fin neg mag)).toNat = neg.toNat * 2 ^ 63 + 0 * 2 ^ 52 + mag := by
      rw [toNat_pack_fin, toNat_packMag_subnormal (by omega)]
      omega
    rw [unpack_of_fields h (by omega) hf, if_neg (by omega), if_pos rfl]
  · have h : (pack c (.fin neg ((2 ^ 52 + f) * 2 ^ (e - 1)))).toNat = neg.toNat * 2 ^ 63 + e * 2 ^ 52 + f := by
      rw [toNat_pack_fin, toNat_packMag_normal he1 he2 hf]
      omega
    rw [unpack_of_fields h (by omega) hf, if_neg (by omega), if_neg (by omega)]

theorem unpack_pack_inf (c : BitVec 53) (neg : Bool) : unpack (pack c (.inf neg)) = .inf neg := by
  rw [unpack_of_fields (toNat_pack_inf c neg) (by omega) (by omega), if_pos rfl, if_pos rfl]

/-- A NaN pattern is chosen by its own sign and fraction (R81). -/
theorem pack_nan_of_nanPatternOk {d : Wide} (h : nanPatternOk d = true) :
    pack (d.extractLsb' 63 1 ++ d.extractLsb' 0 52) .nan = d := by
  obtain ⟨he, hf⟩ : d.extractLsb' 52 11 = 0x7FF#11 ∧ d.extractLsb' 0 52 ≠ 0#52 := by
    simpa [nanPatternOk] using h
  have hfrac : (d.extractLsb' 63 1 ++ d.extractLsb' 0 52).extractLsb' 0 52 = d.extractLsb' 0 52 :=
    BitVec.extractLsb'_append_eq_right
  have hsign : (d.extractLsb' 63 1 ++ d.extractLsb' 0 52).extractLsb' 52 1 = d.extractLsb' 63 1 :=
    BitVec.extractLsb'_append_eq_left
  unfold pack nanPattern
  simp only [hfrac, hsign, if_neg hf, ← he]
  exact append_fields d

/-! ### The statements -/

/-- Settles O27: each class of R76 is one branch of `unpack_eq`. -/
theorem patternsHaveTheirValues : Obligations.PatternsHaveTheirValues := by
  intro d s e f
  have h : unpack d = _ := unpack_eq d
  refine ⟨fun he hf => ?zero, fun he hf => ?subnormal, fun h1 h2 => ?normal, fun he hf => ?inf,
    fun he hf => ?nan⟩
  case zero =>
    rw [h, if_neg (by omega), if_pos he]
    exact congrArg (Datum.fin s) hf
  case subnormal =>
    rw [if_neg (by omega), if_pos he] at h
    rw [h]
    exact ⟨_, rfl, value_fin_eq s f⟩
  case normal =>
    rw [if_neg (by omega), if_neg (by omega)] at h
    rw [h]
    exact ⟨_, rfl, value_normal s f h1⟩
  case inf => rw [h, if_pos he, if_pos hf]
  case nan => rw [h, if_pos he, if_neg hf]

/-- Settles O28: `pack` and `unpack` undo each other on everything but NaNs. -/
theorem patternsAndDataCorrespond : Obligations.PatternsAndDataCorrespond :=
  ⟨unpack_eq_nan_iff, fun _ c h => pack_unpack h c, fun c neg _ => unpack_pack_fin c neg,
    fun _ _ _ => representable_of_unpack, unpack_pack_inf⟩

/-- Settles O29: a NaN pattern is its own choice, and every choice gives a NaN pattern. -/
theorem nanChoiceCoversTheNanPatterns : Obligations.NanChoiceCoversTheNanPatterns := by
  intro d
  constructor
  · exact fun h => ⟨_, pack_nan_of_nanPatternOk h⟩
  · rintro ⟨c, rfl⟩
    exact nanPatternOk_pack_nan c

end Sys2Proof.Machine
end

section
/-!
SUPPORT. The statements about the arithmetic (41_range_conversion.md R77 to R80): each operation rounds its exact result
once, `U2D` is exact, and the comparison that rejects bounds is the order of the numbers.
-/

namespace Sys2Proof.Machine

/-! ### Signed values -/

theorem unitsPerOne_cast_ne_zero : (unitsPerOne : ℚ) ≠ 0 := Nat.cast_ne_zero.mpr unitsPerOne_pos.ne'

theorem signedMag_not (b : Bool) (m : Nat) : signedMag (!b) m = -signedMag b m := by
  cases b <;> simp [signedMag]

theorem signedMag_mul (a b : Bool) (m n : Nat) : signedMag (a != b) (m * n) = signedMag a m * signedMag b n := by
  cases a <;> cases b <;> simp [signedMag]

theorem signedMag_natAbs (z : Int) : signedMag (decide (z < 0)) z.natAbs = z := by
  by_cases h : z < 0
  · rw [decide_eq_true h, signedMag, if_pos rfl]
    omega
  · rw [decide_eq_false h, signedMag, if_neg Bool.false_ne_true]
    omega

/-- A sign is its own inverse. -/
theorem signedMag_div (a b : Bool) (m n : Nat) :
    (signedMag a m / signedMag b n : ℚ) = signedMag (a != b) m / (n : ℚ) := by
  cases a <;> cases b <;> simp [signedMag, neg_div, div_neg]

/-! ### Each operation rounds its exact result once -/

theorem fmul_fin (a b : Bool) (m n : Nat) :
    fmul (.fin a m) (.fin b n) = ofMag (a != b) (roundMag (m * n) unitsPerOne) := rfl

theorem fdiv_fin (a b : Bool) (m : Nat) {n : Nat} (hn : 0 < n) :
    fdiv (.fin a m) (.fin b n) = ofMag (a != b) (roundMag (m * unitsPerOne) n) := if_neg hn.ne'

theorem ofMag_of_lt {m : Nat} (neg : Bool) (hl : m < magLimit) : ofMag neg m = .fin neg m := if_neg (not_le.mpr hl)

theorem roundsTo_fmul (a b : Bool) (m n : Nat) :
    RoundsTo ((Datum.fin a m).value * (Datum.fin b n).value) (fmul (.fin a m) (.fin b n)) := by
  refine roundsTo_of_fraction (a != b) (m * n) unitsPerOne unitsPerOne_pos _ ?_ _ (fmul_fin a b m n)
  have hU := unitsPerOne_cast_ne_zero
  rw [value_fin, value_fin, signedMag_mul]
  push_cast
  field_simp

theorem roundsTo_fdiv (a b : Bool) (m : Nat) {n : Nat} (hn : 0 < n) :
    RoundsTo ((Datum.fin a m).value / (Datum.fin b n).value) (fdiv (.fin a m) (.fin b n)) := by
  refine roundsTo_of_fraction (a != b) (m * unitsPerOne) n hn _ ?_ _ (fdiv_fin a b m hn)
  have hU := unitsPerOne_cast_ne_zero
  have hm : signedMag (a != b) (m * unitsPerOne) = signedMag (a != b) m * unitsPerOne := by
    cases a != b <;> simp [signedMag]
  rw [value_fin, value_fin, div_div_div_cancel_right₀ hU, signedMag_div, hm]
  push_cast
  ring

/-- A rounded sum is the correctly rounded value of the exact sum, a zero of either sign included. -/
theorem roundsTo_roundedSum {x : ℚ} {z : Int} (s : Bool) (hx : x * unitsPerOne = z) :
    RoundsTo x (roundedSum z s) := by
  by_cases hz : z = 0
  · subst hz
    refine roundsTo_of_fraction s 0 1 Nat.one_pos x ?_ _ ?_
    · rw [hx]; cases s <;> simp [signedMag]
    · rw [roundedSum, if_pos rfl, roundMag_zero, ofMag_of_lt s magLimit_pos]
  · refine roundsTo_of_fraction (decide (z < 0)) z.natAbs 1 Nat.one_pos x ?_ _ (if_neg hz)
    rw [hx, signedMag_natAbs, Nat.cast_one, div_one]

theorem roundsTo_fadd (a b : Bool) (m n : Nat) :
    RoundsTo ((Datum.fin a m).value + (Datum.fin b n).value) (fadd (.fin a m) (.fin b n)) := by
  rw [fadd_fin]
  refine roundsTo_roundedSum _ ?_
  rw [value_fin, value_fin, ← add_div, div_mul_cancel₀ _ unitsPerOne_cast_ne_zero, Int.cast_add]

theorem value_fin_not (b : Bool) (n : Nat) : (Datum.fin (!b) n).value = -(Datum.fin b n).value := by
  rw [value_fin, value_fin, signedMag_not, Int.cast_neg, neg_div]

theorem fsub_fin (a b : Bool) (m n : Nat) : fsub (.fin a m) (.fin b n) = fadd (.fin a m) (.fin (!b) n) := rfl

theorem roundsTo_fsub (a b : Bool) (m n : Nat) :
    RoundsTo ((Datum.fin a m).value - (Datum.fin b n).value) (fsub (.fin a m) (.fin b n)) := by
  rw [fsub_fin, sub_eq_add_neg, ← value_fin_not]
  exact roundsTo_fadd a (!b) m n

theorem fadd_opposite {a b : Bool} (m : Nat) (h : a ≠ b) : fadd (.fin a m) (.fin b m) = .fin false 0 := by
  obtain rfl : b = !a := (Bool.eq_not_of_ne h.symm)
  rw [fadd_fin, signedMag_not, add_neg_cancel, roundedSum, if_pos rfl, Bool.and_not_self]

/-! ### `U2D` -/

theorem value_u2d (raw : Word) : (u2d raw).value = (raw.toNat : ℚ) := by
  have hU := unitsPerOne_cast_ne_zero
  rw [u2d, value_fin]
  simp [signedMag, hU]

theorem mul_two_pow_lt {n j i k : Nat} (hn : n < 2 ^ j) (h : j + k ≤ i) : n * 2 ^ k < 2 ^ i :=
  calc n * 2 ^ k < 2 ^ j * 2 ^ k := Nat.mul_lt_mul_of_pos_right hn (by positivity)
    _ = 2 ^ (j + k) := (pow_add ..).symm
    _ ≤ 2 ^ i := Nat.pow_le_pow_right (by decide) h

/-- A 32-bit number is a binary64 magnitude: 32 bits are fewer than 53. -/
theorem u2d_representable (raw : Word) :
    Representable (raw.toNat * unitsPerOne) ∧ raw.toNat * unitsPerOne < magLimit := by
  have hr := raw.isLt
  rw [unitsPerOne_eq, magLimit_eq]
  exact ⟨representable_mul_two_pow (by omega), mul_two_pow_lt hr (by decide)⟩

/-! ### The comparison (R78) -/

theorem fle_fin (a b : Bool) (m n : Nat) : fle (.fin a m) (.fin b n) = decide (signedMag a m ≤ signedMag b n) := by
  rfl

theorem fle_fin_iff_value_le (a b : Bool) (m n : Nat) :
    fle (.fin a m) (.fin b n) = true ↔ (Datum.fin a m).value ≤ (Datum.fin b n).value := by
  have hU : (0 : ℚ) < unitsPerOne := Nat.cast_pos.mpr unitsPerOne_pos
  rw [fle_fin, decide_eq_true_iff, value_fin, value_fin, div_le_div_iff_of_pos_right hU, Int.cast_le]

theorem fle_nan_left (x : Datum) : fle .nan x = false := rfl
theorem fle_nan_right (x : Datum) : fle x .nan = false := by
  cases x with
  | nan => rfl
  | inf a => cases a <;> rfl
  | fin a m => rfl

theorem convDbl_eq_none_iff (raw : Word) (lo hi : Wide) :
    convDbl raw lo hi = none ↔ fle (unpack hi) (unpack lo) = true := by
  refine ⟨fun h => ?_, convDbl_invalid⟩
  by_contra hv
  rw [convDbl_valid (Bool.eq_false_of_not_eq_true hv)] at h
  cases h

/-! ### Special operands (R79) -/

theorem fadd_nan_left (x : Datum) : fadd .nan x = .nan := rfl
theorem fsub_nan_left (x : Datum) : fsub .nan x = .nan := rfl
theorem fadd_nan_right (x : Datum) : fadd x .nan = .nan := by cases x <;> rfl
theorem fmul_nan_right (x : Datum) : fmul x .nan = .nan := by cases x <;> rfl
theorem fdiv_nan_right (x : Datum) : fdiv x .nan = .nan := by cases x <;> rfl
theorem fsub_nan_right (x : Datum) : fsub x .nan = .nan := fadd_nan_right x

theorem fmul_fin_inf (a b : Bool) {m : Nat} (hm : 0 < m) : fmul (.fin a m) (.inf b) = .inf (a != b) := if_neg hm.ne'

theorem fmul_inf_fin (a b : Bool) {m : Nat} (hm : 0 < m) : fmul (.inf b) (.fin a m) = .inf (a != b) := by
  rw [bne_comm]
  exact if_neg hm.ne'

/-- The choice of a zero's sign is not used by a sum that is not zero. -/
theorem roundedSum_of_ne_zero {z : Int} (hz : z ≠ 0) (s t : Bool) : roundedSum z s = roundedSum z t := by
  rw [roundedSum, roundedSum, if_neg hz, if_neg hz]

/-- Adding `+0` to a negative number changes nothing. -/
theorem fadd_zero_of_neg {m : Nat} (hr : Representable m) (hl : m < magLimit) (hm : 0 < m) :
    fadd (.fin true m) (.fin false 0) = .fin true m := by
  have hz : signedMag true m ≠ 0 := by simp [signedMag]; omega
  rw [fadd_fin, fin_eq_roundedSum hr hl, show signedMag false 0 = 0 from rfl, add_zero]
  exact roundedSum_of_ne_zero hz _ _

/-- Adding `+0` changes nothing but the sign of `-0`. -/
theorem fadd_unpack_zero {d : Wide} (hd : unpack d ≠ .fin true 0) : fadd (unpack d) (.fin false 0) = unpack d := by
  cases hx : unpack d with
  | nan => rfl
  | inf a => rfl
  | fin b m =>
    obtain ⟨hr, hl⟩ := representable_of_unpack hx
    cases b with
    | false => exact fadd_zero hr hl
    | true =>
      have hm : m ≠ 0 := by rintro rfl; exact hd hx
      exact fadd_zero_of_neg hr hl (Nat.pos_of_ne_zero hm)

/-! ### The statements -/

/-- Settles O30: the laws of `roundMag`. -/
theorem roundingIsNearestTiesToEven : Obligations.RoundingIsNearestTiesToEven := fun num _ hd =>
  ⟨roundMag_representable num hd, fun _ hm => ⟨roundMag_nearest num hd hm, roundMag_tie num hd hm⟩⟩

/-- Settles O31: each operation is one rounding of the fraction its exact result is. -/
theorem operationsRoundTheExactResult : Obligations.OperationsRoundTheExactResult := by
  refine fun a b m n =>
    ⟨roundsTo_fmul a b m n, roundsTo_fdiv a b m, roundsTo_fadd a b m n, roundsTo_fsub a b m n, ?_⟩
  rintro hne rfl
  exact fadd_opposite m hne

/-- Settles O33: a 32-bit number is representable, so its pattern reads back. -/
theorem conversionOfRawIsExact : Obligations.ConversionOfRawIsExact := by
  refine ⟨fun raw => ⟨_, rfl, value_u2d raw, fun c => ?_⟩, by decide +kernel, by decide +kernel⟩
  obtain ⟨hr, hl⟩ := u2d_representable raw
  exact unpack_pack_fin c false hr hl

/-- Settles O34: the rules of the comparison, then R78's examples by evaluation. -/
theorem doubleBoundsRejected : Obligations.DoubleBoundsRejected := by
  refine ⟨convDbl_eq_none_iff, fun x => ⟨fle_nan_left x, fle_nan_right x⟩, fle_fin_iff_value_le,
    fun a m => ⟨rfl, rfl, rfl, rfl⟩, by decide, ?_⟩
  decide +kernel

/-- Settles O32: the arms of each operation; a datum with `+0` added is the rounding of itself. -/
theorem specialOperandsOfArithmetic : Obligations.SpecialOperandsOfArithmetic := by
  refine ⟨fun x => ⟨rfl, fadd_nan_right x, rfl, fsub_nan_right x, rfl, fmul_nan_right x, rfl, fdiv_nan_right x⟩,
    by decide, fun a b => ⟨rfl, rfl⟩, fun a b m hm => ⟨fmul_fin_inf a b hm, fmul_inf_fin a b hm⟩,
    fun d hd => fadd_unpack_zero hd, rfl⟩

end Sys2Proof.Machine
end

section
/-!
SUPPORT. The statements about `CONV_DBL` (41_range_conversion.md R82, R83): `u` lies in `[0, 1]`, so `p` lies in `[0, w]`,
and a rounded sum keeps the order of its exact sums.
-/

namespace Sys2Proof.Machine

/-! ### The difference of valid bounds -/

/-- A fraction of at least one unit is not rounded to zero: the difference of two numbers never underflows (R83 b). -/
theorem one_le_roundMag {num den : Nat} (hd : 0 < den) (h : den ≤ num) : 1 ≤ roundMag num den :=
  le_roundMag hd (representable_two_pow 0) (by omega)

/-- A finite rounded sum of a positive exact sum is a positive binary64 number. -/
theorem roundedSum_of_pos {z : Int} {s : Bool} (hz : 0 < z) (hf : (roundedSum z s).IsFinite) :
    ∃ w, roundedSum z s = .fin false w ∧ 0 < w ∧ Representable w ∧ w < magLimit := by
  have hpos : 0 < roundMag z.natAbs 1 := one_le_roundMag Nat.one_pos (by omega)
  rcases roundedSum_cases z s with ⟨hinf, -, -⟩ | ⟨b, hfin, hl, -, hb⟩
  · obtain ⟨neg, mag, hm⟩ := hf
    rw [hinf] at hm
    cases hm
  · obtain rfl := hb hz
    exact ⟨_, hfin, hpos, roundMag_representable _ Nat.one_pos, hl⟩

theorem fle_fin_eq_false_iff (a b : Bool) (m n : Nat) :
    fle (.fin a m) (.fin b n) = false ↔ signedMag b n < signedMag a m := by
  rw [fle_fin, decide_eq_false_iff_not, not_le]

/-- `w` for finite valid bounds whose difference does not overflow (R83 b). -/
theorem fsub_of_valid {a b : Bool} {m n : Nat} (hv : fle (.fin b n) (.fin a m) = false)
    (hf : (fsub (.fin b n) (.fin a m)).IsFinite) :
    ∃ w, fsub (.fin b n) (.fin a m) = .fin false w ∧ 0 < w ∧ Representable w ∧ w < magLimit := by
  have hlt := (fle_fin_eq_false_iff b a n m).mp hv
  rw [fsub_fin, fadd_fin, signedMag_not] at hf ⊢
  exact roundedSum_of_pos (by omega) hf

/-! ### The product -/

/-- `u * w` is at most `w` when `u` is at most 1.0 (R83 b). -/
theorem fmul_le_right {u w : Nat} (hu : u ≤ unitsPerOne) (hr : Representable w) (hl : w < magLimit) :
    ∃ p, fmul (.fin false u) (.fin false w) = .fin false p ∧ p ≤ w := by
  have hp : roundMag (u * w) unitsPerOne ≤ w := by
    refine roundMag_le unitsPerOne_pos hr ?_
    rw [Nat.mul_comm w]
    exact Nat.mul_le_mul_right w hu
  exact ⟨_, (fmul_fin ..).trans (ofMag_of_lt _ (hp.trans_lt hl)), hp⟩

/-- `p` for a finite `w` (R83 b). -/
theorem fmul_dblU_le (raw : Word) {w : Nat} (hr : Representable w) (hl : w < magLimit) :
    ∃ p, fmul (dblU raw) (.fin false w) = .fin false p ∧ p ≤ w := by
  obtain ⟨hu, hle⟩ := dblU_eq raw
  rw [hu]
  exact fmul_le_right hle hr hl

/-! ### The sum -/

/-- Adding a finite number keeps the order of finite numbers that are not negative. -/
theorem fle_fadd_right {p w : Nat} (h : p ≤ w) (a : Bool) (m : Nat) :
    fle (fadd (.fin false p) (.fin a m)) (fadd (.fin false w) (.fin a m)) = true := by
  rw [fadd_fin, fadd_fin]
  exact fle_roundedSum _ _ (add_le_add_left (Int.ofNat_le.mpr h) _)

/-- A sum of a number that is not negative and a binary64 number is at least the latter (R83 c). -/
theorem le_fadd_left (p : Nat) {a : Bool} {m : Nat} (hr : Representable m) (hl : m < magLimit) :
    fle (.fin a m) (fadd (.fin false p) (.fin a m)) = true := by
  rw [fadd_fin, fin_eq_roundedSum (neg := a) hr hl]
  exact fle_roundedSum _ _ (le_add_of_nonneg_left (Int.natCast_nonneg p))

/-! ### Infinite and NaN bounds -/

/-- A difference that overflows upwards, or an infinite upper bound, is no invalid pair: the upper bound is larger. -/
theorem fle_eq_false_of_fsub_inf {x y : Datum} (hy : y.IsFinite) (h : fsub x y = .inf false) : fle x y = false := by
  obtain ⟨a, m, rfl⟩ := hy
  cases x with
  | nan => rfl
  | inf b => cases h; rfl
  | fin b n =>
    by_contra hle
    have hle' : signedMag b n ≤ signedMag a m := by
      rwa [Bool.not_eq_false, fle_fin, decide_eq_true_iff] at hle
    rw [fsub_fin, fadd_fin, signedMag_not] at h
    rcases roundedSum_cases (signedMag b n + -signedMag a m) (b && !a) with ⟨hinf, -, hne⟩ | ⟨_, hfin, -⟩
    · rw [h, Datum.inf.injEq, eq_comm, decide_eq_false_iff_not] at hinf
      omega
    · rw [h] at hfin
      cases hfin

/-- An infinite `w`: `+inf`, but for `0 * inf` at `raw = 0` (R83 d). -/
theorem convDbl_of_fsub_inf (raw : Word) {lo hi : Wide} (hlo : (unpack lo).IsFinite)
    (h : fsub (unpack hi) (unpack lo) = .inf false) :
    convDbl raw lo hi = some (if raw = 0#32 then .nan else .inf false) := by
  rw [convDbl_valid (fle_eq_false_of_fsub_inf hlo h), dblP, dblW, h, fmul_dblU_inf]
  obtain ⟨a, m, hlo⟩ := hlo
  rw [hlo]
  by_cases h0 : raw = 0#32
  · rw [if_pos h0]; rfl
  · rw [if_neg h0]; rfl

theorem fsub_inf_fin (b a : Bool) (m : Nat) : fsub (.inf b) (.fin a m) = .inf b := rfl

/-- `-inf` as a lower bound: `w` and `p` are `+inf` or a NaN, and their sum with `-inf` is a NaN (R83 e). -/
theorem convDbl_of_neg_inf (raw : Word) {lo hi : Wide} (hlo : unpack lo = .inf true)
    (hhi : (unpack hi).IsFinite ∨ unpack hi = .inf false) : convDbl raw lo hi = some .nan := by
  obtain ⟨hv, hw⟩ : fle (unpack hi) (.inf true) = false ∧ fsub (unpack hi) (.inf true) = .inf false := by
    rcases hhi with ⟨b, n, h⟩ | h <;> rw [h] <;> exact ⟨rfl, rfl⟩
  rw [convDbl_valid (by rw [hlo, hv]), dblP, dblW, hlo, hw, fmul_dblU_inf]
  by_cases h0 : raw = 0#32
  · rw [if_pos h0]; rfl
  · rw [if_neg h0]; rfl

/-- A NaN bound is not rejected, and the result is a NaN (R83 f). -/
theorem convDbl_of_nan (raw : Word) {lo hi : Wide} (h : unpack lo = .nan ∨ unpack hi = .nan) :
    convDbl raw lo hi = some .nan := by
  rcases h with h | h
  · rw [convDbl_valid (by rw [h, fle_nan_right]), h, fadd_nan_right]
  · rw [convDbl_valid (by rw [h, fle_nan_left]), dblP, dblW, h, fsub_nan_left, fmul_nan_right, fadd_nan_left]

/-! ### The statements -/

/-- Settles O35: the quotient is `u`. -/
theorem unitQuotientIsClosed : Obligations.UnitQuotientIsClosed := by
  refine ⟨fun raw => ?_, transform_of_zero_sum, by decide⟩
  obtain ⟨hu, hle⟩ := dblU_eq raw
  exact ⟨_, hu, hle, dblU_zero_iff raw, dblU_one_iff raw⟩

/-- Settles O36: `p` lies in `[0, w]`, and the last sum keeps that order. -/
theorem doubleResultIsAtLeastMin : Obligations.DoubleResultIsAtLeastMin := by
  rintro raw lo hi ⟨a, m, hlo⟩ ⟨b, n, hhi⟩ hv hf
  refine ⟨_, _, _, rfl, rfl, convDbl_valid hv, rfl, ?_⟩
  obtain ⟨hr, hl⟩ := representable_of_unpack hlo
  rw [hlo, hhi] at hv hf
  rw [dblP, dblW, hlo, hhi]
  obtain ⟨w, hw, hpos, hwr, hwl⟩ := fsub_of_valid hv hf
  obtain ⟨p, hp, hle⟩ := fmul_dblU_le raw hwr hwl
  have hp' : fmul (fdiv (u2d raw) (u2d 0xFFFFFFFF#32)) (.fin false w) = .fin false p := hp
  rw [hw, hp, hp']
  refine ⟨?positive, ?nonneg, ?product, le_fadd_left p hr hl, fle_fadd_right hle a m⟩
  case positive => exact (fle_fin_eq_false_iff ..).mpr (Int.natCast_pos.mpr hpos)
  case nonneg => exact (fle_fin ..).trans (decide_eq_true (Int.natCast_nonneg p))
  case product => exact (fle_fin ..).trans (decide_eq_true (Int.ofNat_le.mpr hle))

/-- Settles O38: the difference overflows, or a bound is infinite, or one is a NaN. -/
theorem doubleResultAtInfinityAndNan : Obligations.DoubleResultAtInfinityAndNan := by
  intro raw lo hi
  refine ⟨convDbl_of_fsub_inf raw, fun hlo hhi => convDbl_of_fsub_inf raw hlo ?_, convDbl_of_neg_inf raw,
    convDbl_of_nan raw⟩
  obtain ⟨a, m, hlo⟩ := hlo
  rw [hlo, hhi, fsub_inf_fin]

/-- Settles O37: R83's witnesses, by evaluation. -/
theorem doubleResultCanReachAndPassMax : Obligations.DoubleResultCanReachAndPassMax :=
  ⟨by decide +kernel, by decide +kernel, by decide +kernel, by decide +kernel⟩

end Sys2Proof.Machine
end

section
/-!
SUPPORT. The statements about `SEED` and the integer draws (42_stateful_draws.md R91 to R95). Every integer draw is `drawInt`
on the bounds its command fills in, and its value is the one `intConversionIsContained` describes.
-/

namespace Sys2Proof

/-! ### The integer operands of a word, as the statements write them -/

/-- `cmd.b[31:0]` (30 R37), as one field of the word. -/
theorem bIntOf_eq (w : Cmd) : bIntOf w = w.extractLsb' 0 32 :=
  BitVec.extractLsb'_extractLsb'_of_le (by decide)

/-- `cmd.a[31:0]` (30 R37), as one field of the word. -/
theorem aIntOf_eq (w : Cmd) : aIntOf w = w.extractLsb' 64 32 := by
  ext k hk
  simp [aIntOf, aOf]
  omega

end Sys2Proof

namespace Sys2Proof.Machine

/-! ### The commands as draws -/

/-- `SEED` as one update (R91). -/
theorem exec_seed (v : Word) (s : State) :
    exec (.seed v) s = .next { s with STATE := v, rsps := s.rsps ++ [okWord 0#64] } := rfl

theorem exec_nextr (lo hi : Word) (s : State) : exec (.nextr lo hi) s = .next (drawInt dataOfWord lo hi s) := rfl

/-- `NEXTM` is `NEXTR` from 0 (R94). -/
theorem exec_nextm (hi : Word) (s : State) : exec (.nextm hi) s = exec (.nextr 0#32 hi) s := rfl

/-- `NEXT` is `NEXTM` up to `INT32_MAX` (R93). -/
theorem exec_next (s : State) : exec .next s = exec (.nextm Params.int32Max) s := rfl

theorem exec_nextb (s : State) : exec .nextb s = .next (drawInt dataOfByte 0#32 Params.int32Max s) := rfl

/-- A command with invalid bounds answers `INVALID_RANGE` and changes nothing else (60 R117, R122). -/
theorem exec_of_rangeInvalid {i : Instr} (h : rangeInvalid i = true) (s : State) :
    exec i s = .next { s with rsps := s.rsps ++ [invalidRangeWord] } := by
  rw [exec_eq, nextSTATE_of_rangeInvalid h, (answer_invalid_iff i s.STATE).mpr h]
  rfl

/-- `NEXTR` on valid bounds, as one update with R94's value. -/
theorem exec_nextr_of_valid {lo hi : Word} (h : lo.toInt < hi.toInt) (s : State) : ∃ v : Word,
    v.toInt = lo.toInt + remainderOfRaw (transform s.STATE) (hi.toInt - lo.toInt).toNat ∧
    lo.toInt ≤ v.toInt ∧ v.toInt < hi.toInt ∧ (hi.toInt = lo.toInt + 1 → v = lo) ∧
    exec (.nextr lo hi) s =
      .next { s with STATE := transform s.STATE, rsps := s.rsps ++ [okWord (v.setWidth 64)] } := by
  obtain ⟨-, -, v, hv, hval, hlo, hhi, hone, -, -⟩ := (intConversionIsContained (transform s.STATE) lo hi).2 h
  exact ⟨v, hval, hlo, by omega, hone, by rw [exec_nextr, drawInt_some hv]; rfl⟩

/-! ### The default range -/

/-- A draw in `[0, INT32_MAX)`: the value is the remainder itself, which needs no sign (R92). -/
theorem convInt_default (raw : Word) : ∃ v : Word,
    convInt raw 0#32 Params.int32Max = some v ∧ v.toNat = remainderOfRaw raw 2147483647 := by
  obtain ⟨-, -, v, hv, hval, hlo, -⟩ := (intConversionIsContained raw 0#32 Params.int32Max).2 (by decide)
  have hval : v.toInt = remainderOfRaw raw 2147483647 := hval.trans (Int.zero_add _)
  have hlo : 0 ≤ v.toInt := hlo
  refine ⟨v, hv, ?_⟩
  rw [BitVec.toInt_eq_toNat_cond] at hval hlo
  omega

/-- `NEXT` and `NEXTB` place the same value in two ways (R95). -/
theorem exec_next_nextb (s : State) : ∃ v : Word,
    v.toNat = remainderOfRaw (transform s.STATE) 2147483647 ∧
    exec .next s = .next { s with STATE := transform s.STATE, rsps := s.rsps ++ [okWord (dataOfWord v)] } ∧
    exec .nextb s = .next { s with STATE := transform s.STATE, rsps := s.rsps ++ [okWord (dataOfByte v)] } := by
  obtain ⟨v, hv, hn⟩ := convInt_default (transform s.STATE)
  exact ⟨v, hn, congrArg _ (drawInt_some hv), congrArg _ (drawInt_some hv)⟩

/-- The low byte on natural numbers. -/
theorem dataOfByte_eq (v : Word) : dataOfByte v = BitVec.ofNat 64 (v.toNat % 256) := by
  apply BitVec.eq_of_toNat_eq
  simp [dataOfByte, BitVec.extractLsb'_toNat]

/-- `NEXTB` as one update (R95). -/
theorem exec_nextb_eq (s : State) :
    exec .nextb s = .next
      { s with STATE := transform s.STATE,
               rsps := s.rsps ++ [okWord (BitVec.ofNat 64 (remainderOfRaw (transform s.STATE) 2147483647 % 256))] } := by
  obtain ⟨v, hn, -, hb⟩ := exec_next_nextb s
  rw [hb, dataOfByte_eq, hn]

/-- R92's closed form, by the four ranges of `raw`. -/
def nextClosedForm (raw : Word) : Word :=
  if raw.toNat ≤ 0x7FFFFFFE then raw
  else if raw = 0x7FFFFFFF#32 then 0#32
  else if raw = 0x80000000#32 then 0x7FFFFFFE#32
  else raw - 0x80000001#32

/-- Each range of the closed form is the remainder of the narrowed `raw` by `INT32_MAX`. -/
theorem toNat_nextClosedForm (raw : Word) : (nextClosedForm raw).toNat = remainderOfRaw raw 2147483647 := by
  have hr := raw.isLt
  unfold nextClosedForm
  split_ifs with hlow hmax hmin
  · rw [remainderOfRaw, if_pos (by omega), Nat.mod_eq_of_lt (by omega)]
  · rw [hmax]; rfl
  · rw [hmin]; rfl
  · have hmax : raw.toNat ≠ 0x7FFFFFFF := fun h => hmax (BitVec.eq_of_toNat_eq h)
    have hmin : raw.toNat ≠ 0x80000000 := fun h => hmin (BitVec.eq_of_toNat_eq h)
    have hsub : (raw - 0x80000001#32).toNat = raw.toNat - 0x80000001 :=
      BitVec.toNat_sub_of_le (BitVec.le_def.mpr (show 0x80000001 ≤ raw.toNat by omega))
    rw [hsub, remainderOfRaw, if_neg (by omega)]
    split_ifs <;> omega

/-- A remainder of the narrowed `raw` is less than the divisor, in both cases of R71's second wording. -/
theorem remainderOfRaw_lt (raw : Word) {d : Nat} (hd : 0 < d) : remainderOfRaw raw d < d := by
  have hpos := Nat.mod_lt raw.toNat hd
  unfold remainderOfRaw
  split_ifs
  · exact hpos
  · exact hd
  · omega

theorem transform_one : transform 1#32 = 0xDC661379#32 := by decide

/-- A preimage of `INT32_MAX` (40 R61): the draw is 0, and the low byte of `raw` is not. -/
theorem transform_to_int32Max : transform 0xA7326C55#32 = 0x7FFFFFFF#32 := by decide

/-! ### The statements -/

/-- Settles O39: the operand is written, and the old `STATE` is not read. -/
theorem seedLoadsSTATE : Obligations.SeedLoadsSTATE :=
  ⟨fun _ hw => decode_seed hw, exec_seed, fun _ _ _ => rfl⟩

/-- Settles O40: the closed form and the drawn value are the same number. -/
theorem nextDrawsBelowInt32Max : Obligations.NextDrawsBelowInt32Max := by
  refine ⟨fun w hw => decode_next hw, fun s => ?_⟩
  obtain ⟨v, hn, he, -⟩ := exec_next_nextb s
  have hv : v = nextClosedForm (transform s.STATE) := BitVec.eq_of_toNat_eq (hn.trans (toNat_nextClosedForm _).symm)
  rw [hv] at he
  exact ⟨he, (toNat_nextClosedForm _).trans_le (Nat.le_of_lt_succ (remainderOfRaw_lt _ (by decide)))⟩

/-- Settles O42: the rules of `NEXTR`. -/
theorem nextrDrawsInRange : Obligations.NextrDrawsInRange := by
  refine ⟨fun w hw => ?_, fun lo hi s => ⟨fun h => ?_, fun h => exec_nextr_of_valid h s, rfl⟩⟩
  · rw [decode_nextr hw, aIntOf_eq, bIntOf_eq]
  · exact exec_of_rangeInvalid (i := .nextr lo hi) (decide_eq_true h) s

/-- Settles O41: `NEXTM` is `NEXTR` from 0, and a draw in `[0, 1)` is 0. -/
theorem nextmDrawsBelowMax : Obligations.NextmDrawsBelowMax := by
  refine ⟨fun w hw => ?decode, fun hi s => ⟨fun h => ?invalid, fun h => ?valid, ?one, rfl⟩⟩
  case decode => rw [decode_nextm hw, bIntOf_eq]
  case invalid => exact exec_of_rangeInvalid (i := .nextm hi) (decide_eq_true h) s
  case valid =>
    obtain ⟨v, hval, -, hlt, -, he⟩ := exec_nextr_of_valid (lo := 0#32) h s
    have hpos : (hi.toInt - (0#32).toInt).toNat = hi.toNat := by
      rw [BitVec.toInt_zero, sub_zero]
      rw [BitVec.toInt_eq_toNat_cond] at h ⊢
      omega
    rw [hpos, BitVec.toInt_zero, zero_add] at hval
    exact ⟨v, hval, hlt, he⟩
  case one =>
    obtain ⟨v, -, -, -, hone, he⟩ := exec_nextr_of_valid (lo := 0#32) (hi := 1#32) (by decide) s
    rw [exec_nextm, he, hone (by decide)]
    rfl

/-- Settles O43: one value, placed as a word and as a byte; then the two contrasts. -/
theorem nextbReturnsTheLowByte : Obligations.NextbReturnsTheLowByte := by
  refine ⟨fun w hw => decode_nextb hw, fun s => ?_, fun s hs => ?_, fun s hs => ?_⟩
  · obtain ⟨v, -, hw, hb⟩ := exec_next_nextb s
    rw [dataOfByte_eq] at hb
    exact ⟨v, hw, hb⟩
  · rw [exec_nextb_eq, hs, transform_one]
    rfl
  · rw [exec_nextb_eq, hs, transform_to_int32Max]
    rfl

end Sys2Proof.Machine
end

section
/-!
SUPPORT. The statements about the double draws (42_stateful_draws.md R96 to R98). Every double draw is `drawDbl` on the bounds
its command fills in; from a lower bound of `+0.0` the formula of 41 R82 comes down to `u * max`.
-/

namespace Sys2Proof.Machine

/-! ### The commands as draws -/

theorem exec_nextdr (lo hi : Wide) (s : State) : exec (.nextdr lo hi) s = .next (drawDbl lo hi s) := rfl

/-- `NEXTDM` is `NEXTDR` from `+0.0` (R97). -/
theorem exec_nextdm (hi : Wide) (s : State) : exec (.nextdm hi) s = exec (.nextdr Params.dblZero hi) s := rfl

/-- `NEXTD` is `NEXTDM` up to 1.0 (R96). -/
theorem exec_nextd (s : State) : exec .nextd s = exec (.nextdm Params.dblOne) s := rfl

/-- A draw whose result is no NaN chooses no pattern. -/
theorem exec_nextdr_of_ne_nan {lo hi : Wide} {y : Datum} {s : State}
    (h : convDbl (transform s.STATE) lo hi = some y) (hy : y ≠ .nan) (c : BitVec 53) :
    exec (.nextdr lo hi) s =
      .next { s with STATE := transform s.STATE, rsps := s.rsps ++ [okWord (pack c y)] } := by
  rw [exec_nextdr, drawDbl_some h, if_neg hy, pack_of_ne_nan hy _ c]

/-- A draw whose result is a NaN answers some NaN pattern, newly chosen (41 R81). -/
theorem exec_nextdr_of_nan {lo hi : Wide} {s : State} (h : convDbl (transform s.STATE) lo hi = some .nan) :
    ∃ d : Wide, nanPatternOk d = true ∧ exec (.nextdr lo hi) s = .next
      { s with STATE := transform s.STATE, rsps := s.rsps ++ [okWord d], nanDraws := s.nanDraws + 1 } :=
  ⟨_, nanPatternOk_pack_nan (Config.nanOut s.nanDraws), by rw [exec_nextdr, drawDbl_some h, if_pos rfl]⟩

/-! ### A lower bound of zero -/

theorem ofMag_ne_nan (neg : Bool) (mag : Nat) : ofMag neg mag ≠ .nan := by
  unfold ofMag
  split_ifs <;> simp

/-- Adding `+0` to a rounded number changes nothing (41 R83 g). -/
theorem fadd_rounded_zero (num : Nat) {den : Nat} (hd : 0 < den) :
    fadd (ofMag false (roundMag num den)) (.fin false 0) = ofMag false (roundMag num den) := by
  unfold ofMag
  split_ifs with hl
  · rfl
  · exact fadd_zero (roundMag_representable num hd) (not_le.mp hl)

/-- The product of `u` and a positive finite number is one rounding of their exact product. -/
theorem fmul_dblU_fin (raw : Word) (m : Nat) :
    ∃ num, fmul (dblU raw) (.fin false m) = ofMag false (roundMag num unitsPerOne) := by
  rw [(dblU_eq raw).1]
  exact ⟨_, fmul_fin ..⟩

theorem fmul_dblU_fin_ne_nan (raw : Word) (m : Nat) : fmul (dblU raw) (.fin false m) ≠ .nan := by
  obtain ⟨num, h⟩ := fmul_dblU_fin raw m
  rw [h]
  exact ofMag_ne_nan _ _

/-- From `+0.0` to a positive finite `max` the formula is `u * max`: its difference and its sum change nothing (R97). -/
theorem convDbl_zero_of_fin (raw : Word) {hi : Wide} {m : Nat} (hhi : unpack hi = .fin false m) (hm : 0 < m) :
    convDbl raw Params.dblZero hi = some (fmul (dblU raw) (unpack hi)) := by
  have hvalid : fle (unpack hi) (unpack Params.dblZero) = false := by
    rw [hhi, unpack_dblZero]
    exact (fle_fin_eq_false_iff ..).mpr (Int.natCast_pos.mpr hm)
  obtain ⟨hr, hl⟩ := representable_of_unpack hhi
  obtain ⟨num, hp⟩ := fmul_dblU_fin raw m
  rw [convDbl_valid hvalid, dblP, dblW, hhi, unpack_dblZero, fsub_zero hr hl hm, hp, fadd_rounded_zero num unitsPerOne_pos]

/-- From `+0.0` to `+inf` the result is infinite, but for `0 * inf` at `raw = 0` (41 R83 d). -/
theorem convDbl_zero_of_inf (raw : Word) {hi : Wide} (hhi : unpack hi = .inf false) :
    convDbl raw Params.dblZero hi = some (if raw = 0#32 then .nan else .inf false) :=
  convDbl_of_fsub_inf raw ⟨_, _, unpack_dblZero⟩ (by rw [hhi, unpack_dblZero, fsub_inf_fin])

/-- From `+0.0` to 1.0 the result is `u` itself (41 R83 g). -/
theorem convDbl_unit (raw : Word) : convDbl raw Params.dblZero Params.dblOne = some (dblU raw) := by
  obtain ⟨hr, hl⟩ := dblU_representable raw
  rw [convDbl_zero_of_fin raw unpack_dblOne unitsPerOne_pos, unpack_dblOne, (dblU_eq raw).1, fmul_one hr hl]

/-- `u` is never subnormal: the smallest one that is not zero is about 2^-32 (41 R83 g). -/
theorem two_pow_le_dblU {raw : Word} (h : raw ≠ 0#32) : 2 ^ 52 ≤ roundMag (raw.toNat * unitsPerOne) 4294967295 := by
  have hpos : 1 ≤ raw.toNat := Nat.pos_of_ne_zero fun h0 => h (BitVec.eq_of_toNat_eq h0)
  refine le_roundMag (by decide) (representable_two_pow 52) ?_
  calc 2 ^ 52 * 4294967295 ≤ 2 ^ 84 := by decide
    _ ≤ unitsPerOne := (Nat.pow_le_pow_right two_pos (by decide)).trans_eq unitsPerOne_eq.symm
    _ ≤ raw.toNat * unitsPerOne := Nat.le_mul_of_pos_left _ hpos

/-! ### The statements -/

/-- Settles O44: the formula comes down to `u`, whose range `dblU_eq` and its companions give. -/
theorem nextdReturnsTheUnitQuotient : Obligations.NextdReturnsTheUnitQuotient := by
  refine ⟨fun w hw => decode_nextd hw, fun s => ?_⟩
  have hconv := convDbl_unit (transform s.STATE)
  obtain ⟨hu, hle⟩ := dblU_eq (transform s.STATE)
  rw [hu] at hconv
  exact ⟨_, hu, fun c => exec_nextdr_of_ne_nan hconv (by simp) c, hle, dblU_one_iff _, dblU_zero_iff _,
    fun hm => two_pow_le_dblU (mt (dblU_zero_iff _).mpr hm)⟩

/-- Settles O45: one case for each kind of `max`, from the draw's lower bound `+0.0`. -/
theorem nextdmDrawsUpToMax : Obligations.NextdmDrawsUpToMax := by
  refine ⟨fun w hw => decode_nextdm hw, fun hi s => ⟨fun h => ?invalid, fun h => ?nan, fun m h hm c => ?finite,
    fun h hraw => ?inf, fun h hraw => ?inf_zero⟩⟩
  case invalid => exact exec_of_rangeInvalid (i := .nextdm hi) h s
  case nan => exact exec_nextdr_of_nan (convDbl_of_nan _ (.inr h))
  case finite =>
    refine exec_nextdr_of_ne_nan (convDbl_zero_of_fin _ h hm) ?_ c
    rw [h]
    exact fmul_dblU_fin_ne_nan _ m
  case inf =>
    have hconv := convDbl_zero_of_inf (transform s.STATE) h
    rw [if_neg hraw] at hconv
    exact exec_nextdr_of_ne_nan hconv (by simp) 0#53
  case inf_zero =>
    have hconv := convDbl_zero_of_inf (transform s.STATE) h
    rw [if_pos hraw] at hconv
    exact exec_nextdr_of_nan hconv

/-- Settles O46: `convDbl_valid` is the formula, and its result is a NaN or is not. -/
theorem nextdrDrawsByTheFormula : Obligations.NextdrDrawsByTheFormula := by
  refine ⟨fun w hw => decode_nextdr hw, fun lo hi s => ⟨fun h => ?invalid, fun h => ?valid⟩⟩
  case invalid => exact exec_of_rangeInvalid (i := .nextdr lo hi) h s
  case valid =>
    have hconv := convDbl_valid (raw := transform s.STATE) h
    exact ⟨exec_nextdr_of_ne_nan hconv, fun hy => exec_nextdr_of_nan (hconv.trans (congrArg some hy))⟩

end Sys2Proof.Machine
end

section
/-!
SUPPORT. The statements about sequences of commands (42_stateful_draws.md R90, R99, R101). What an accepted word does to
`STATE` and which response it adds are functions of the word, of `STATE` and, for the pattern of a NaN alone, of the count of
NaN patterns; so two runs of the same words stay alike once `STATE` is.
-/

namespace Sys2Proof.Machine

/-! ### Sequences of commands -/

theorem execAll_cons_of_next {i : Instr} {s t : State} (is : List Instr) (h : exec i s = .next t) :
    execAll (i :: is) s = execAll is t := by
  simp only [execAll, h]

/-- The stateful draws with valid bounds: the commands that advance `STATE` (R90). -/
def advances (i : Instr) : Bool := statefulDraw i && !rangeInvalid i

/-- A command that is no `SEED` applies `T` once if it advances, and otherwise leaves `STATE` alone (10 R12). -/
theorem nextSTATE_of_not_seed {i : Instr} (hi : ∀ v, i ≠ .seed v) (x : Word) :
    nextSTATE i x = if advances i then transform x else x := by
  cases i with
  | seed v => exact absurd rfl (hi v)
  | _ => rfl

/-- A sequence without a `SEED` applies `T` once for each command that advances. -/
theorem execAll_STATE {is : List Instr} (hseed : ∀ v, Instr.seed v ∉ is) (s : State) :
    ∃ t, execAll is s = .next t ∧ t.STATE = transform^[(is.filter advances).length] s.STATE := by
  induction is generalizing s with
  | nil => exact ⟨s, rfl, rfl⟩
  | cons i is ih =>
    have hi : ∀ v, i ≠ .seed v := fun v h => hseed v (h ▸ List.mem_cons_self)
    obtain ⟨t, ht, hx⟩ := ih (fun v h => hseed v (List.mem_cons_of_mem i h)) _
    refine ⟨t, (execAll_cons_of_next is (exec_eq i s)).trans ht, hx.trans ?_⟩
    rw [after_STATE, nextSTATE_of_not_seed hi]
    cases ha : advances i
    · rw [List.filter_cons_of_neg (by simp [ha])]; rfl
    · rw [List.filter_cons_of_pos ha]; rfl

/-! ### Filling bytes -/

/-- The response of a byte draw from `x` (R95). -/
def byteRsp (x : Word) : Rsp := okWord (BitVec.ofNat 64 (remainderOfRaw (transform x) 2147483647 % 256))

/-- `n` byte draws advance `STATE` `n` times, and draw `k` starts from `T^k(STATE)` (R101). -/
theorem execAll_replicate_nextb (n : Nat) (s : State) :
    execAll (List.replicate n .nextb) s = .next
      { s with STATE := transform^[n] s.STATE,
               rsps := s.rsps ++ (List.range n).map fun k => byteRsp (transform^[k] s.STATE) } := by
  induction n generalizing s with
  | zero => simp [execAll]
  | succ n ih =>
    rw [List.replicate_succ, execAll_cons_of_next _ (exec_nextb_eq s), ih, List.range_succ_eq_map]
    simp [byteRsp, Function.comp_def]

/-! ### What an accepted word does -/

/-- `STATE` after the word `w` has been accepted at the value `x`: an illegal word leaves it alone (60 R118). -/
def wordSTATE (w : Cmd) (x : Word) : Word := (decode w).elim x (nextSTATE · x)

/-- The response to the word `w` at the value `x` of `STATE`, when `n` NaN patterns have been chosen. -/
def wordRsp (w : Cmd) (x : Word) (n : Nat) : Rsp := (decode w).elim illegalOpWord fun i => (answer i x).word n

section
variable {w : Cmd} {i : Instr} (x : Word) (n : Nat)

theorem wordSTATE_of_illegal (h : decode w = none) : wordSTATE w x = x := by rw [wordSTATE, h, Option.elim_none]

theorem wordSTATE_of_decode (h : decode w = some i) : wordSTATE w x = nextSTATE i x := by
  rw [wordSTATE, h, Option.elim_some]

theorem wordRsp_of_illegal (h : decode w = none) : wordRsp w x n = illegalOpWord := by
  rw [wordRsp, h, Option.elim_none]

theorem wordRsp_of_decode (h : decode w = some i) : wordRsp w x n = (answer i x).word n := by
  rw [wordRsp, h, Option.elim_some]

end

/-- The responses to a word from one value of `STATE` agree, whatever NaN patterns were chosen. -/
theorem rspAgree_wordRsp (w : Cmd) (x : Word) (n m : Nat) : rspAgree (wordRsp w x n) (wordRsp w x m) := by
  cases hd : decode w with
  | none => exact .inl (by rw [wordRsp_of_illegal x n hd, wordRsp_of_illegal x m hd])
  | some i =>
    rw [wordRsp_of_decode x n hd, wordRsp_of_decode x m hd]
    exact rspAgree_word _ n m

/-- After a `SEED` the old `STATE` is forgotten (R91). -/
theorem wordSTATE_seed (v x : Word) : wordSTATE (encode (.seed v)) x = v := wordSTATE_of_decode x (decode_encode _)

theorem wordRsp_seed (v x : Word) (n : Nat) : wordRsp (encode (.seed v)) x n = okWord 0#64 :=
  wordRsp_of_decode x n (decode_encode _)

/-! ### A block whose reset input stays released -/

/-- The words `ws` are presented, and every sample of the reset input that is left is released. -/
structure State.Presents (s : State) (ws : List Cmd) : Prop where
  released : ∀ x ∈ s.resetLine, x = .released
  cmds : s.cmds = ws

theorem State.Presents.not_underReset {s : State} {ws : List Cmd} (h : s.Presents ws) : ¬ s.underReset := by
  rintro ⟨line, hl | hl⟩ <;> exact absurd (h.released _ (hl ▸ List.mem_cons_self)) (by decide)

/-- A step accepts the first of the words presented, and the others stay. -/
theorem State.Presents.step {s : State} {w : Cmd} {ws : List Cmd} (h : s.Presents (w :: ws)) :
    ∃ t, Machine.step s = .next t ∧ t.Presents ws ∧ t.STATE = wordSTATE w s.STATE ∧
      t.rsps = s.rsps ++ [wordRsp w s.STATE s.nanDraws] := by
  have hline : ∀ x ∈ s.resetLine.tail, x = .released := fun x hx => h.released x (List.mem_of_mem_tail hx)
  cases hd : decode w with
  | none =>
    rw [wordSTATE_of_illegal _ hd, wordRsp_of_illegal _ _ hd]
    exact ⟨_, step_illegal h.not_underReset h.cmds hd, ⟨hline, rfl⟩, raise_STATE .., raise_rsps ..⟩
  | some i =>
    rw [wordSTATE_of_decode _ hd, wordRsp_of_decode _ _ hd]
    exact ⟨_, (step_command h.not_underReset h.cmds hd).trans (exec_eq i _), ⟨hline, rfl⟩, after_STATE ..,
      after_rsps ..⟩

/-! ### Two runs of the same words -/

/-- `k` steps from `s` and from `s'`, at which `ws` is presented, leave equal `STATE` and have produced `k` responses that
agree (R99). -/
def RunsAgree (k : Nat) (ws : List Cmd) (s s' : State) : Prop :=
  ∃ (t t' : State) (rs rs' : List Rsp),
    Host.Core.run Sys2Proof.core k s = .next t ∧ Host.Core.run Sys2Proof.core k s' = .next t' ∧
    t.STATE = t'.STATE ∧ t.cmds = ws.drop k ∧ t'.cmds = ws.drop k ∧
    t.rsps = s.rsps ++ rs ∧ t'.rsps = s'.rsps ++ rs' ∧ rs.length = k ∧ List.Forall₂ rspAgree rs rs'

/-- Runs agree if their first responses do and the runs from there agree. -/
theorem RunsAgree.cons {k : Nat} {w : Cmd} {ws : List Cmd} {s s' t t' : State} {r r' : Rsp}
    (ht : step s = .next t) (ht' : step s' = .next t') (hr : t.rsps = s.rsps ++ [r]) (hr' : t'.rsps = s'.rsps ++ [r'])
    (hag : rspAgree r r') (h : RunsAgree k ws t t') : RunsAgree (k + 1) (w :: ws) s s' := by
  obtain ⟨u, u', rs, rs', hu, hu', hx, hc, hc', hrs, hrs', hlen, hall⟩ := h
  refine ⟨u, u', r :: rs, r' :: rs', (run_step ht).trans hu, (run_step ht').trans hu', hx, hc, hc', ?_, ?_,
    congrArg (· + 1) hlen, .cons hag hall⟩
  · rw [hrs, hr, List.append_assoc, List.singleton_append]
  · rw [hrs', hr', List.append_assoc, List.singleton_append]

/-- Once `STATE` is equal, the runs of the same words agree. -/
theorem runsAgree_of_STATE_eq {ws : List Cmd} {s s' : State} (h : s.Presents ws) (h' : s'.Presents ws)
    (hx : s.STATE = s'.STATE) {k : Nat} (hk : k ≤ ws.length) : RunsAgree k ws s s' := by
  induction k generalizing ws s s' with
  | zero => exact ⟨s, s', [], [], rfl, rfl, hx, h.cmds, h'.cmds, by simp, by simp, rfl, .nil⟩
  | succ k ih =>
    cases ws with
    | nil => exact absurd hk (by simp)
    | cons w ws =>
      obtain ⟨t, ht, hp, hSTATE, hr⟩ := h.step
      obtain ⟨t', ht', hp', hSTATE', hr'⟩ := h'.step
      rw [← hx] at hSTATE' hr'
      exact .cons ht ht' hr hr' (rspAgree_wordRsp ..)
        (ih hp hp' (hSTATE.trans hSTATE'.symm) (Nat.le_of_succ_le_succ hk))

/-- Runs that begin with the same `SEED` agree, whatever `STATE` was. -/
theorem runsAgree_of_seed {v : Word} {ws : List Cmd} {s s' : State} (h : s.Presents (encode (.seed v) :: ws))
    (h' : s'.Presents (encode (.seed v) :: ws)) {k : Nat} (hk : k ≤ ws.length) :
    RunsAgree (k + 1) (encode (.seed v) :: ws) s s' := by
  obtain ⟨t, ht, hp, hSTATE, hr⟩ := h.step
  obtain ⟨t', ht', hp', hSTATE', hr'⟩ := h'.step
  rw [wordSTATE_seed] at hSTATE hSTATE'
  rw [wordRsp_seed] at hr hr'
  exact .cons ht ht' hr hr' (.inl rfl) (runsAgree_of_STATE_eq hp hp' (hSTATE.trans hSTATE'.symm) hk)

/-! ### The statements -/

/-- Settles O51: the filter of the statement is `advances`. -/
theorem drawsIterateTheTransform : Obligations.DrawsIterateTheTransform := fun _ s hseed => execAll_STATE hseed s

/-- Settles O52: the `SEED` makes `STATE` equal, and from there the runs agree. -/
theorem determinismAfterSeed : Obligations.DeterminismAfterSeed := by
  intro v ws s s' hl hl' hc hc' k hk
  exact runsAgree_of_seed ⟨hl, hc⟩ ⟨hl', hc'⟩ hk

/-- Settles O53: the assembler writes `n` byte draws, and each is one `NEXTB`. -/
theorem byteFillIsNDraws : Obligations.ByteFillIsNDraws := by
  refine ⟨fun _ _ => rfl, fun n s => ?_⟩
  rw [execAll_replicate_nextb]
  simp only [byteRsp, Function.iterate_succ_apply']

end Sys2Proof.Machine
end

section
/-!
SUPPORT. The statements about the commands that neither read nor write `STATE` (43_stateless_draws.md R106 to R114). Every
stateless draw is `sdrawInt` or `sdrawDbl` on the bounds its command fills in. Its answer is the one the stateful draw gives at
`STATE = seed`, and `exec_eq` turns that into the responses and the values of `STATE`.
-/

namespace Sys2Proof.Machine

/-! ### The integer draws -/

theorem exec_snextr (seed lo hi : Word) (s : State) :
    exec (.snextr seed lo hi) s = .next (sdrawInt seed lo hi s) := rfl

/-- `SNEXTM` is `SNEXTR` from 0 (R108). -/
theorem exec_snextm (seed hi : Word) (s : State) : exec (.snextm seed hi) s = exec (.snextr seed 0#32 hi) s := rfl

/-- `SNEXT` is `SNEXTM` up to `INT32_MAX` (R107). -/
theorem exec_snext (seed : Word) (s : State) : exec (.snext seed) s = exec (.snextm seed Params.int32Max) s := rfl

/-- `SNEXTR` on valid bounds, as one update with R109's value. -/
theorem exec_snextr_of_valid {lo hi : Word} (h : lo.toInt < hi.toInt) (seed : Word) (s : State) : ∃ v : Word,
    v.toInt = lo.toInt + remainderOfRaw (transform seed) (hi.toInt - lo.toInt).toNat ∧
    lo.toInt ≤ v.toInt ∧ v.toInt < hi.toInt ∧
    exec (.snextr seed lo hi) s = .next { s with rsps := s.rsps ++ [okWord (v.setWidth 64)] } := by
  obtain ⟨-, -, v, hv, hval, hlo, hhi, -⟩ := (intConversionIsContained (transform seed) lo hi).2 h
  exact ⟨v, hval, hlo, by omega, by rw [exec_snextr, sdrawInt_some hv]; rfl⟩

/-- `SNEXTM` on a valid bound: from 0 the value is the remainder itself (R108). -/
theorem exec_snextm_of_valid {hi : Word} (h : 0 < hi.toInt) (seed : Word) (s : State) : ∃ v : Word,
    v.toInt = remainderOfRaw (transform seed) hi.toNat ∧
    exec (.snextm seed hi) s = .next { s with rsps := s.rsps ++ [okWord (v.setWidth 64)] } := by
  obtain ⟨v, hval, -, -, he⟩ := exec_snextr_of_valid (lo := 0#32) h seed s
  have hnat : hi.toInt.toNat = hi.toNat := by
    rw [BitVec.toInt_eq_toNat_cond] at h ⊢
    omega
  rw [BitVec.toInt_zero, sub_zero, zero_add, hnat] at hval
  exact ⟨v, hval, he⟩

/-! ### The double draws -/

theorem exec_snextdr (seed : Word) (lo hi : Wide) (s : State) :
    exec (.snextdr seed lo hi) s = .next (sdrawDbl seed lo hi s) := rfl

/-- `SNEXTDM` is `SNEXTDR` from `+0.0` (R111). -/
theorem exec_snextdm (seed : Word) (hi : Wide) (s : State) :
    exec (.snextdm seed hi) s = exec (.snextdr seed Params.dblZero hi) s := rfl

/-- `SNEXTD` is `SNEXTDM` up to 1.0 (R110). -/
theorem exec_snextd (seed : Word) (s : State) : exec (.snextd seed) s = exec (.snextdm seed Params.dblOne) s := rfl

/-- A draw whose result is no NaN chooses no pattern. -/
theorem exec_snextdr_of_ne_nan {seed : Word} {lo hi : Wide} {y : Datum} {s : State}
    (h : convDbl (transform seed) lo hi = some y) (hy : y ≠ .nan) (c : BitVec 53) :
    exec (.snextdr seed lo hi) s = .next { s with rsps := s.rsps ++ [okWord (pack c y)] } := by
  rw [exec_snextdr, sdrawDbl_some h, if_neg hy, pack_of_ne_nan hy _ c]

/-- A draw whose result is a NaN answers some NaN pattern, newly chosen (41 R81). -/
theorem exec_snextdr_of_nan {seed : Word} {lo hi : Wide} {s : State}
    (h : convDbl (transform seed) lo hi = some .nan) :
    ∃ d : Wide, nanPatternOk d = true ∧ exec (.snextdr seed lo hi) s =
      .next { s with rsps := s.rsps ++ [okWord d], nanDraws := s.nanDraws + 1 } :=
  ⟨_, nanPatternOk_pack_nan (Config.nanOut s.nanDraws), by rw [exec_snextdr, sdrawDbl_some h, if_pos rfl]⟩

/-- The unit quotient is a number (41 R83 g). -/
theorem dblU_ne_nan (raw : Word) : dblU raw ≠ .nan := by
  rw [(dblU_eq raw).1]
  exact Datum.noConfusion

/-! ### A stateless draw and its stateful partner -/

/-- The six pairs of R113: the stateful draw `i`, and the stateless draw `j` from `seed` with the same bounds. -/
def StatelessForm (seed : Word) (i j : Instr) : Prop :=
  (i = .next ∧ j = .snext seed) ∨
  (∃ hi, i = .nextm hi ∧ j = .snextm seed hi) ∨ (∃ lo hi, i = .nextr lo hi ∧ j = .snextr seed lo hi) ∨
  (i = .nextd ∧ j = .snextd seed) ∨
  (∃ hi, i = .nextdm hi ∧ j = .snextdm seed hi) ∨ (∃ lo hi, i = .nextdr lo hi ∧ j = .snextdr seed lo hi)

/-- Partners are a stateful draw and a command that is none, and from the seed the first answers what the second answers
anywhere. -/
theorem StatelessForm.spec {seed : Word} {i j : Instr} (h : StatelessForm seed i j) :
    statefulDraw i = true ∧ statefulDraw j = false ∧ (∀ v, j ≠ .seed v) ∧ ∀ x, answer j x = answer i seed := by
  rcases h with ⟨rfl, rfl⟩ | ⟨hi, rfl, rfl⟩ | ⟨lo, hi, rfl, rfl⟩ | ⟨rfl, rfl⟩ | ⟨hi, rfl, rfl⟩ | ⟨lo, hi, rfl, rfl⟩ <;>
    exact ⟨rfl, rfl, fun _ => Instr.noConfusion, fun _ => rfl⟩

/-- A stateful draw advances `STATE` unless its bounds are invalid (10 R12). -/
theorem nextSTATE_of_draw {i : Instr} (hd : statefulDraw i = true) (x : Word) :
    nextSTATE i x = if rangeInvalid i then x else transform x := by
  cases hv : rangeInvalid i with
  | false => exact nextSTATE_of_valid_draw hd hv x
  | true => exact nextSTATE_of_rangeInvalid hv x

/-- `SEED` and one command: what the command does at `STATE = seed`, after the response of the `SEED`. -/
theorem execAll_seed_then (seed : Word) (i : Instr) (s : State) : ∃ t : State,
    execAll [.seed seed, i] s = .next t ∧ t.STATE = nextSTATE i seed ∧
    t.rsps = s.rsps ++ [okWord 0#64, (answer i seed).word s.nanDraws] := by
  refine ⟨_, (execAll_cons_of_next _ (exec_seed seed s)).trans (execAll_cons_of_next _ (exec_eq i _)), rfl, ?_⟩
  rw [after_rsps, List.append_assoc, List.singleton_append]

/-! ### The statements -/

/-- Settles O47: the rules of `SNEXTR`, and the default bounds for the other two. -/
theorem statelessIntegerDraws : Obligations.StatelessIntegerDraws := by
  refine ⟨fun w hw => decode_snext hw, fun w hw => ?decode_m, fun w hw => ?decode_r, fun seed lo hi s =>
    ⟨fun h => ?invalid_r, fun h => exec_snextr_of_valid h seed s, fun h => ?invalid_m,
      fun h => exec_snextm_of_valid h seed s, exec_snextm_of_valid (hi := Params.int32Max) (by decide) seed s, rfl, rfl⟩⟩
  case decode_m => rw [decode_snextm hw, bIntOf_eq]; rfl
  case decode_r => rw [decode_snextr hw, aIntOf_eq, bIntOf_eq]; rfl
  case invalid_r => exact exec_of_rangeInvalid (i := .snextr seed lo hi) (decide_eq_true h) s
  case invalid_m => exact exec_of_rangeInvalid (i := .snextm seed hi) (decide_eq_true h) s

/-- Settles O48: `convDbl_valid` is the formula, and its result is a NaN or is not; on the unit range it is `u`. -/
theorem statelessDoubleDraws : Obligations.StatelessDoubleDraws := by
  refine ⟨fun w hw => decode_snextd hw, fun w hw => decode_snextdm hw, fun w hw => decode_snextdr hw, fun seed lo hi s =>
    ⟨fun h => ?invalid, fun h => ?valid, fun c => ?unit, exec_continues _ s, rfl, rfl⟩⟩
  case invalid => exact exec_of_rangeInvalid (i := .snextdr seed lo hi) h s
  case valid =>
    have hconv := convDbl_valid (raw := transform seed) h
    exact ⟨exec_snextdr_of_ne_nan hconv, fun hy => exec_snextdr_of_nan (hconv.trans (congrArg some hy))⟩
  case unit =>
    rw [exec_snextd, exec_snextdm]
    exact exec_snextdr_of_ne_nan (convDbl_unit _) (dblU_ne_nan _) c

/-- Settles O49: partners have one answer, and after `SEED` the stateful one starts from the seed. -/
theorem statelessEqualsSeededStateful : Obligations.StatelessEqualsSeededStateful := by
  refine fun seed s => ⟨fun i j h => ?partners, fun i hd hv => ?mix⟩
  case partners =>
    obtain ⟨hdraw, hstateless, hseed, hanswer⟩ := StatelessForm.spec h
    obtain ⟨t, ht, hSTATE, hrsps⟩ := execAll_seed_then seed i s
    refine ⟨t, _, _, _, ht, hrsps, exec_eq j s, after_rsps .., ?agree, nextSTATE_stateless hstateless hseed s.STATE,
      hSTATE.trans (nextSTATE_of_draw hdraw seed)⟩
    rw [hanswer]
    exact rspAgree_word _ _ _
  case mix =>
    obtain ⟨t, ht, hSTATE, -⟩ := execAll_seed_then seed i s
    refine ⟨t, _, ht, exec_mix seed s, ?_⟩
    rw [hSTATE, nextSTATE_of_valid_draw hd hv]

/-- Settles O50: the answer is one, whatever the two states are, and only the NaN pattern may differ. -/
theorem statelessCommandsArePure : Obligations.StatelessCommandsArePure := fun i s s' hd hv =>
  ⟨_, _, _, _, exec_eq i s, exec_eq i s', after_rsps .., after_rsps .., rspAgree_of_stateless hd ..,
    nextSTATE_stateless hd hv s.STATE, nextSTATE_stateless hd hv s'.STATE⟩

end Sys2Proof.Machine
end

section
/-!
SUPPORT. The statement about the one error a command can raise (60_exceptions.md R117, R122). That a failed command changes
only the responses is `exec_of_rangeInvalid`; here is the other half, that a command with valid bounds answers `OK`.
-/

namespace Sys2Proof.Machine

/-- Every answer but `INVALID_RANGE` is a response with the code `OK` (60 R116). -/
theorem exists_word_eq_okWord {a : Answer} (ha : a ≠ .invalid) (n : Nat) : ∃ d, a.word n = okWord d := by
  cases a with
  | invalid => exact absurd rfl ha
  | data d => exact ⟨d, rfl⟩
  | datum y => exact ⟨_, rfl⟩

/-- A command whose bounds are valid, or that has none, completes with the code `OK` (60 R117, R119). -/
theorem exec_of_rangeValid {i : Instr} (h : rangeInvalid i = false) (s : State) :
    ∃ (t : State) (d : Wide), exec i s = .next t ∧ t.rsps = s.rsps ++ [okWord d] := by
  have ha : answer i s.STATE ≠ .invalid := by simp [answer_invalid_iff, h]
  obtain ⟨d, hd⟩ := exists_word_eq_okWord ha s.nanDraws
  exact ⟨_, d, exec_eq i s, by rw [after_rsps, hd]⟩

/-! ### The statement -/

/-- Settles O14: the bounds alone decide between the error, which leaves all but the responses as they were, and `OK`. -/
theorem invalidRangeChangesNothing : Obligations.InvalidRangeChangesNothing := fun _ s =>
  ⟨fun h => exec_of_rangeInvalid h s, fun h => exec_of_rangeValid h s⟩

end Sys2Proof.Machine
end

section
/-!
SUPPORT. The statements about reset and about commands before any `SEED` (70_reset_and_hazards.md R136, R139). What an
asserted reset input does is `step_asserted` and `step_assertedMidCommand`; no command asks whether `STATE` was ever seeded,
so R139 is what holds of a command at any value of `STATE`.
-/

namespace Sys2Proof.Machine

/-- A stateful draw with valid bounds completes with `OK` and advances `STATE`, from every state (42 R90, 60 R116). -/
theorem exec_of_valid_draw {i : Instr} (hd : statefulDraw i = true) (hv : rangeInvalid i = false) (s : State) :
    ∃ (t : State) (d : Wide), exec i s = .next t ∧ t.rsps = s.rsps ++ [okWord d] ∧ t.STATE = transform s.STATE := by
  obtain ⟨t, d, ht, hrsps⟩ := exec_of_rangeValid hv s
  obtain ⟨u, hu, hSTATE⟩ := (noPeekWithoutAdvance i s s.STATE).2 hd hv
  cases ht.symm.trans hu
  exact ⟨t, d, ht, hrsps, hSTATE⟩

/-! ### The statements -/

/-- Settles O17: the one next state of a step under each of the two asserted samples has these fields. -/
theorem resetDiscardsTheCommandInFlight : Obligations.ResetDiscardsTheCommandInFlight :=
  ⟨fun _ _ h => ⟨_, step_asserted h, rfl, rfl, rfl⟩, fun _ _ h => ⟨_, step_assertedMidCommand h, rfl, rfl, rfl⟩⟩

/-- Settles O18: after reset the response channel is empty, so the draw's response is the only one; every other command
answers the same at `x` and at `y`, since it does not read `STATE`. -/
theorem drawBeforeSeedIsNoError : Obligations.DrawBeforeSeedIsNoError := by
  refine fun x y i => ⟨fun hd hv => ?draw, fun h => ?other⟩
  case draw => exact exec_of_valid_draw hd hv { State.reset with STATE := x }
  case other => exact (noPeekWithoutAdvance i { State.reset with STATE := x } y).1 h

end Sys2Proof.Machine
end
